-- ==== Sys2Proof/Word.lean ====
section
/-! DEFINITION. Bytes, byte strings (00_scope.md R7) and fixed-width byte registers. -/

namespace Sys2Proof

/-- A byte, an integer 0 to 255 (00_scope.md R7, R8). -/
abbrev Byte := BitVec 8

/-- A byte string: a finite sequence of bytes, the first byte having index 0 (00_scope.md R7). -/
abbrev ByteString := List Byte

/-- `zeros(n)`: the string of `n` bytes 0x00 (00_scope.md R7). -/
def zeros (n : Nat) : ByteString := List.replicate n 0

/-- The contents of a register of `n` bytes. -/
structure Bytes (n : Nat) where
  data : ByteString
  len : data.length = n
  deriving DecidableEq, Repr

/-- A register of `n` zero bytes. -/
def Bytes.zero (n : Nat) : Bytes n := ⟨zeros n, by simp [zeros]⟩

/-- The string `l` held in a register of `n` bytes, padded with zero bytes on the right; every rule
that writes a register gives at most `n` bytes, so the cut after `n` bytes never loses one. -/
def Bytes.ofList (n : Nat) (l : ByteString) : Bytes n :=
  ⟨(l ++ zeros (n - l.length)).take n, by simp [zeros]; omega⟩

/-- The register with the byte at index `i` replaced. -/
def Bytes.set {n : Nat} (r : Bytes n) (i : Nat) (b : Byte) : Bytes n :=
  ⟨r.data.set i b, by simp [r.len]⟩

end Sys2Proof
end

