-- ==== Sys2Proof/Config.lean ====
section
/-! DEFINITION. What is fixed for one block: the cipher-family table, the constants and the open
parameters (00_scope.md R5, R6, R10). -/

namespace Sys2Proof

/-- The four cipher families (00_scope.md R6). -/
inductive Family where
  | des
  | tdes2
  | tdes3
  | aes
  deriving DecidableEq, Repr

/-- The two CBC disciplines (00_scope.md R6, 41_cbc_modes.md R130). -/
inductive Discipline where
  | standard
  | legacy
  deriving DecidableEq, Repr

namespace Config

/-- `bs(f)`, the block size in bytes (00_scope.md R6). -/
def bs : Family → Nat
  | .des => 8
  | .tdes2 => 8
  | .tdes3 => 8
  | .aes => 16

/-- `kl(f)`, the key length in bytes (00_scope.md R6). -/
def kl : Family → Nat
  | .des => 8
  | .tdes2 => 16
  | .tdes3 => 24
  | .aes => 16

/-- `nl(f)`, the nonce length in bytes (00_scope.md R6; 90_conflicts.md C3 for TDES3). -/
def nl : Family → Nat
  | .des => 8
  | .tdes2 => 8
  | .tdes3 => 16
  | .aes => 16

/-- `skl(f)`, the session-key length in bytes (00_scope.md R6). -/
def skl : Family → Nat
  | .des => 8
  | .tdes2 => 16
  | .tdes3 => 24
  | .aes => 16

/-- The authentication instruction code, a constant of the family the block itself never uses
(00_scope.md R6; the host uses it, 45_host_protocol.md R252). -/
def authInstruction : Family → Byte
  | .des => 0x0A
  | .tdes2 => 0x0A
  | .tdes3 => 0x1A
  | .aes => 0xAA

/-- The CBC discipline of a family: it follows from the family alone (41_cbc_modes.md R130). -/
def discipline : Family → Discipline
  | .des => .legacy
  | .tdes2 => .legacy
  | .tdes3 => .standard
  | .aes => .standard

/-- `CMAC_RB`, XORed into the last byte by the doubling (00_scope.md R5). -/
def cmacRb : Byte := 0x87

/-- `CMAC_MAX_N`, the largest MAC length in bytes (00_scope.md R5). -/
def cmacMaxN : Nat := 16

/-- `MAX_PAYLOAD`, the largest command payload in bytes (00_scope.md R5). -/
def maxPayload : Nat := 65535

/-- The two readings of what the legacy receive mode XORs block `i` with (41_cbc_modes.md R134). -/
inductive LrecvChain where
  | prevCiphered
  | prevPlain
  deriving DecidableEq, Repr

/-- The open parameters, which the model takes as arguments (00_scope.md R5, R10;
92_eei_decisions.md, "Open parameters"). -/
structure Params where
  /-- `BCE(f, K, B)`: encrypt one block. -/
  enc : Family → ByteString → ByteString → ByteString
  /-- `BCD(f, K, B)`: decrypt one block. -/
  dec : Family → ByteString → ByteString → ByteString
  /-- `LRECV_CHAIN`. -/
  lrecvChain : LrecvChain
  /-- `CMAC_DEFAULT_N`. -/
  cmacDefaultN : Nat

/-- The block cipher: for each family and key, one permutation of the set of `bs(f)`-byte blocks, and
nothing else is known of it (00_scope.md R10, 40_block_cipher_adapter.md R101). A free value: it has
no body, so no proof can see a ciphertext. Log entry 1. -/
opaque blockCipher : (f : Family) → Bytes (kl f) → Equiv.Perm (Bytes (bs f))

/-- `BCE(f, K, B)` (00_scope.md R10). On ill-sized operands, which no command presents
(40_block_cipher_adapter.md R102), the operands are first padded or cut: log entry 11. -/
def bce (f : Family) (K B : ByteString) : ByteString :=
  (blockCipher f (Bytes.ofList (kl f) K) (Bytes.ofList (bs f) B)).data

/-- `BCD(f, K, B)`, the inverse permutation (00_scope.md R10); ill-sized operands as for `bce`. -/
def bcd (f : Family) (K B : ByteString) : ByteString :=
  ((blockCipher f (Bytes.ofList (kl f) K)).symm (Bytes.ofList (bs f) B)).data

/-- The parameters of this model: the uninterpreted cipher, and the spec's values of the other two
(00_scope.md R5; 90_conflicts.md C4, C7). DESIGN CHOICE: log entries 2 and 3. -/
def params : Params where
  enc := bce
  dec := bcd
  lrecvChain := .prevCiphered
  cmacDefaultN := 16

end Config
end Sys2Proof
end

