-- ==== Sys2Proof/Syntax.lean ====
section
/-! DEFINITION. The abstract syntax: the decoded commands of 30_encoding.md R79, one constructor per
row of the opcode table. -/

namespace Sys2Proof

/-- The errors a command, or the decoding of a frame, can end in (60_exceptions.md R260). -/
inductive CmdError where
  /-- A key's length does not match its family, or a CMAC key is not tagged AES. -/
  | invalidKey
  /-- A payload that is not a key has a length the command does not accept. -/
  | badLength
  /-- The command needs the adapter key and `KEYV = 0`. -/
  | noKey
  /-- The command needs the CMAC key and `CINIT = 0`. -/
  | notInitialized
  /-- `ARG` has a value the command does not accept. -/
  | badArg
  /-- `OP` is not one of the seventeen opcodes. -/
  | badOpcode
  /-- The byte string presented is not a well-formed frame. -/
  | badFrame
  deriving DecidableEq, Repr

/-- The seventeen commands (30_encoding.md R73, R79). A command that takes no payload still carries the
bytes it was sent, since a payload there is an error the command itself reports. `p` is the payload. -/
inductive Instr where
  | zeroize (p : ByteString)
  | stat (p : ByteString)
  | keyLoad (fam : Family) (p : ByteString)
  | keyClear (p : ByteString)
  | ecbEnc (p : ByteString)
  | ecbDec (p : ByteString)
  | ivZero (p : ByteString)
  | ivLoad (p : ByteString)
  | ivGet (p : ByteString)
  | cbcOut (p : ByteString)
  | cbcIn (p : ByteString)
  | cmacInit (tag : Byte) (p : ByteString)
  | cmacUpdate (p : ByteString)
  | cmacFinal (n : Byte) (p : ByteString)
  | skdDerive (fam : Family) (p : ByteString)
  | rotl1 (p : ByteString)
  | keyPrep (fam : Family) (p : ByteString)
  deriving DecidableEq, Repr

/-- The payload a command carries (30_encoding.md R70, R79). -/
def Instr.payload : Instr → ByteString
  | .zeroize p => p
  | .stat p => p
  | .keyLoad _ p => p
  | .keyClear p => p
  | .ecbEnc p => p
  | .ecbDec p => p
  | .ivZero p => p
  | .ivLoad p => p
  | .ivGet p => p
  | .cbcOut p => p
  | .cbcIn p => p
  | .cmacInit _ p => p
  | .cmacUpdate p => p
  | .cmacFinal _ p => p
  | .skdDerive _ p => p
  | .rotl1 p => p
  | .keyPrep _ p => p

end Sys2Proof
end

