-- ==== Sys2Proof/WellFormed.lean ====
section
/-! DEFINITION. Which terms of `Instr` are commands: what 30_encoding.md R74, R75 and R79 ask of the
arguments that the types do not already say. -/

namespace Sys2Proof

/-- The argument byte is one the opcode accepts (30_encoding.md R74). Only the MAC length of CMAC.FINAL
is left to check: a family code is a `Family`, and every family tag of CMAC.INIT decodes. -/
def Instr.argOk : Instr → Bool
  | .cmacFinal n _ => decide (n.toNat ≤ Config.cmacMaxN)
  | .zeroize _ => true
  | .stat _ => true
  | .keyLoad _ _ => true
  | .keyClear _ => true
  | .ecbEnc _ => true
  | .ecbDec _ => true
  | .ivZero _ => true
  | .ivLoad _ => true
  | .ivGet _ => true
  | .cbcOut _ => true
  | .cbcIn _ => true
  | .cmacInit _ _ => true
  | .cmacUpdate _ => true
  | .skdDerive _ _ => true
  | .rotl1 _ => true
  | .keyPrep _ _ => true

/-- The payload fits the 16-bit length field (30_encoding.md R70, R79). -/
def Instr.payloadOk (i : Instr) : Bool := decide (i.payload.length ≤ Config.maxPayload)

/-- A well-formed command. -/
def Instr.wf (i : Instr) : Bool := i.argOk && i.payloadOk

/-- A well-formed command, as a proposition. -/
abbrev Instr.WellFormed (i : Instr) : Prop := i.wf = true

end Sys2Proof
end

