-- ==== Sys2Proof/Decode.lean ====
section
/-! DEFINITION. Decoding a command frame, total on any byte string (30_encoding.md R70, R72 to R76),
and the encoder written from the same tables (30_encoding.md R70, R71, R73, R74). -/

namespace Sys2Proof

/-! ## Numbers in frames -/

/-- A 16-bit length field, most significant byte first (20_memory.md R51 (b)). -/
def be16 (n : Nat) : ByteString := [BitVec.ofNat 8 (n / 256), BitVec.ofNat 8 n]

/-- The value of a 16-bit length field (30_encoding.md R70, R75). -/
def lenField (hi lo : Byte) : Nat := 256 * hi.toNat + lo.toNat

/-- The numeric code of a family (00_scope.md R6). -/
def familyCode : Family → Byte
  | .des => 0
  | .tdes2 => 1
  | .tdes3 => 2
  | .aes => 3

/-- The family of a code; 0x04 to 0xFF are no family (30_encoding.md R74 (b)). -/
def familyOfCode (b : Byte) : Option Family :=
  match b.toNat with
  | 0 => some .des
  | 1 => some .tdes2
  | 2 => some .tdes3
  | 3 => some .aes
  | _ => none

/-- The status code of an error (60_exceptions.md R260). -/
def errorCode : CmdError → Byte
  | .invalidKey => 0x01
  | .badLength => 0x02
  | .noKey => 0x03
  | .notInitialized => 0x04
  | .badArg => 0x05
  | .badOpcode => 0x06
  | .badFrame => 0x07

/-! ## Decoding -/

/-- `ARG` of kind zero: any other value is `BadArg` (30_encoding.md R74 (a)). -/
def zeroArg (arg : Byte) (i : Instr) : Except CmdError Instr :=
  if arg = 0 then .ok i else .error .badArg

/-- `ARG` of kind family code (30_encoding.md R74 (b)). -/
def familyArg (arg : Byte) (mk : Family → Instr) : Except CmdError Instr :=
  match familyOfCode arg with
  | some f => .ok (mk f)
  | none => .error .badArg

/-- `ARG` of kind MAC length: 0x00 to 0x10 (30_encoding.md R74 (d)). -/
def macLenArg (arg : Byte) (i : Instr) : Except CmdError Instr :=
  if arg.toNat ≤ Config.cmacMaxN then .ok i else .error .badArg

/-- The opcode map (30_encoding.md R73): `OP` alone selects the command, then `ARG` is checked (R74).
The last arm is the refusal of the 239 illegal opcodes (R76). -/
def decodeCommand (op arg : Byte) (p : ByteString) : Except CmdError Instr :=
  match op.toNat with
  | 0x01 => zeroArg arg (.zeroize p)
  | 0x02 => zeroArg arg (.stat p)
  | 0x10 => familyArg arg (fun f => .keyLoad f p)
  | 0x11 => zeroArg arg (.keyClear p)
  | 0x12 => zeroArg arg (.ecbEnc p)
  | 0x13 => zeroArg arg (.ecbDec p)
  | 0x20 => zeroArg arg (.ivZero p)
  | 0x21 => zeroArg arg (.ivLoad p)
  | 0x22 => zeroArg arg (.ivGet p)
  | 0x24 => zeroArg arg (.cbcOut p)
  | 0x25 => zeroArg arg (.cbcIn p)
  | 0x30 => .ok (.cmacInit arg p)
  | 0x31 => zeroArg arg (.cmacUpdate p)
  | 0x32 => macLenArg arg (.cmacFinal arg p)
  | 0x40 => familyArg arg (fun f => .skdDerive f p)
  | 0x41 => zeroArg arg (.rotl1 p)
  | 0x42 => familyArg arg (fun f => .keyPrep f p)
  | _ => .error .badOpcode

/-- Decode any byte string presented as a command (30_encoding.md R72, 60_exceptions.md R262 checks 1
to 3): shorter than a header, or a payload whose length is not what `LEN` says, is `BadFrame`. -/
def decode : ByteString → Except CmdError Instr
  | op :: arg :: hi :: lo :: p =>
    if p.length = lenField hi lo then decodeCommand op arg p else .error .badFrame
  | _ => .error .badFrame

/-! ## Encoding -/

/-- The opcode of a command (30_encoding.md R73). -/
def opcode : Instr → Byte
  | .zeroize _ => 0x01
  | .stat _ => 0x02
  | .keyLoad _ _ => 0x10
  | .keyClear _ => 0x11
  | .ecbEnc _ => 0x12
  | .ecbDec _ => 0x13
  | .ivZero _ => 0x20
  | .ivLoad _ => 0x21
  | .ivGet _ => 0x22
  | .cbcOut _ => 0x24
  | .cbcIn _ => 0x25
  | .cmacInit _ _ => 0x30
  | .cmacUpdate _ => 0x31
  | .cmacFinal _ _ => 0x32
  | .skdDerive _ _ => 0x40
  | .rotl1 _ => 0x41
  | .keyPrep _ _ => 0x42

/-- The argument byte of a command (30_encoding.md R74). -/
def argByte : Instr → Byte
  | .zeroize _ => 0
  | .stat _ => 0
  | .keyLoad f _ => familyCode f
  | .keyClear _ => 0
  | .ecbEnc _ => 0
  | .ecbDec _ => 0
  | .ivZero _ => 0
  | .ivLoad _ => 0
  | .ivGet _ => 0
  | .cbcOut _ => 0
  | .cbcIn _ => 0
  | .cmacInit t _ => t
  | .cmacUpdate _ => 0
  | .cmacFinal n _ => n
  | .skdDerive f _ => familyCode f
  | .rotl1 _ => 0
  | .keyPrep f _ => familyCode f

/-- A command frame: `OP ARG LEN P` (30_encoding.md R70). -/
def commandFrame (op arg : Byte) (p : ByteString) : ByteString :=
  op :: arg :: (be16 p.length ++ p)

/-- The frame of a command (30_encoding.md R70, R79). -/
def encode (i : Instr) : ByteString := commandFrame (opcode i) (argByte i) i.payload

/-- A response frame: `ST RLEN D` (30_encoding.md R71). -/
def responseFrame (st : Byte) (d : ByteString) : ByteString := st :: (be16 d.length ++ d)

/-! ## The words of the opcode table -/

/-- The `n` bytes of `v` from its least significant byte up. -/
def bytesUp : Nat → Nat → ByteString
  | 0, _ => []
  | n + 1, v => BitVec.ofNat 8 v :: bytesUp n (v / 256)

/-- The frame whose bits the opcode table numbers as `w`: the table's word is the 32-bit header `W` with
frame byte 0 most significant (30_encoding.md R70); payload byte `k` is bits `39 + 8k .. 32 + 8k`, and
every bit from `nbits` on is 0. The payload is as long as the `LEN` field says. Log entry 9. -/
def tableFrame (nbits w : Nat) : ByteString :=
  let v := w % 2 ^ nbits
  let header := v % 2 ^ 32
  (bytesUp 4 header).reverse ++ bytesUp (header % 65536) (v / 2 ^ 32)

/-- The instruction the decoder reads from the table word `w` of `nbits` bits; `none` where it refuses. -/
def decodeTableWord (nbits w : Nat) : Option Instr := (decode (tableFrame nbits w)).toOption

end Sys2Proof
end

