-- ==== Sys2Proof/Machine/CipherProg.lean ====
section
/-! DEFINITION. A computation that may call the block cipher (00_scope.md R10). The operations and meanings
that use the cipher are written as such computations: a ciphertext reaches them only as the answer to a
call, so that the calls a command makes can be listed from the very text the machine runs
(40_block_cipher_adapter.md R109, 70_reset_and_hazards.md R308). -/

namespace Sys2Proof.Machine

/-- Which of the two functions is called: `BCE` or `BCD`. -/
inductive CipherDir where
  | enc
  | dec
  deriving DecidableEq, Repr

/-- One call of `BCE` or `BCD`, with its three operands. -/
structure CipherCall where
  dir : CipherDir
  fam : Family
  key : ByteString
  block : ByteString
  deriving DecidableEq, Repr

/-- A computation of a value that makes cipher calls one after the other. -/
inductive CipherProg (α : Type) where
  /-- No further call: the value. -/
  | done (a : α)
  /-- Make one call, and go on with its answer. -/
  | call (q : CipherCall) (next : ByteString → CipherProg α)

/-- The cipher's answer to a call. -/
def answerCall (c : Config.Params) (q : CipherCall) : ByteString :=
  match q.dir with
  | .enc => c.enc q.fam q.key q.block
  | .dec => c.dec q.fam q.key q.block

namespace CipherProg

variable {α β : Type}

/-- The value computed under given parameters. -/
def run (c : Config.Params) : CipherProg α → α
  | .done a => a
  | .call q next => (next (answerCall c q)).run c

/-- The calls made under given parameters, in order. -/
def trace (c : Config.Params) : CipherProg α → List CipherCall
  | .done _ => []
  | .call q next => q :: (next (answerCall c q)).trace c

/-- One computation after another. -/
def bind : CipherProg α → (α → CipherProg β) → CipherProg β
  | .done a, k => k a
  | .call q next, k => .call q fun b => (next b).bind k

/-- A computation, then a function of its value. -/
def map (g : α → β) (x : CipherProg α) : CipherProg β := x.bind fun a => .done (g a)

end CipherProg

/-- `BCE(f, K, B)` as a computation of one call. -/
def callEnc (f : Family) (K B : ByteString) : CipherProg ByteString := .call ⟨.enc, f, K, B⟩ .done

/-- `BCD(f, K, B)` as a computation of one call. -/
def callDec (f : Family) (K B : ByteString) : CipherProg ByteString := .call ⟨.dec, f, K, B⟩ .done

end Sys2Proof.Machine
end

