-- ==== Sys2Proof/Machine/State.lean ====
section
/-! DEFINITION. The state of the block, as plain data, and its reset value (10_state.md). -/

namespace Sys2Proof.Machine

/-- The twelve registers, the complete state of the block (10_state.md R22). -/
structure Regs where
  /-- `KEYV`: `FAM` and `KEY` hold a loaded key (R23). -/
  keyv : Bool
  /-- `FAM`: family of the loaded key (R24). -/
  fam : Family
  /-- `KEY`: the loaded key, zero-padded on the right (R25). -/
  key : Bytes 24
  /-- `IV`: the chaining value carried between CBC commands, zero-padded on the right (R26). -/
  iv : Bytes 16
  /-- `CINIT`: `CK`, `K1`, `K2` hold an initialised CMAC key (R30). -/
  cinit : Bool
  /-- `CK`: the CMAC key (R31). -/
  ck : Bytes 16
  /-- `K1`: first subkey (R31). -/
  k1 : Bytes 16
  /-- `K2`: second subkey (R31). -/
  k2 : Bytes 16
  /-- `X`: the CBC-MAC chaining value of the message in progress (R32). -/
  x : Bytes 16
  /-- `BUF`: the held-back block (R33). -/
  buf : Bytes 16
  /-- `BLEN`: how many bytes of `BUF` are held, 0 to 16 (R33). -/
  blen : Fin 17
  /-- `LERR`: status code of the most recent command that ended in an error (R36). -/
  lerr : Byte
  deriving DecidableEq, Repr

/-- A move of the host (45_host_protocol.md R246, 70_reset_and_hazards.md R300, R310). -/
inductive HostMove where
  /-- Present a byte string as a command frame; any byte string may be presented. -/
  | frame (f : ByteString)
  /-- Assert the block's reset between two commands. -/
  | reset
  deriving DecidableEq, Repr

/-- The block's registers, and the interface to the host as two lists of the model's own: the moves the
host has still to make and the responses it has received, both oldest first. Log entries 4 and 5. -/
structure State where
  regs : Regs
  pending : List HostMove
  responses : List ByteString
  deriving DecidableEq, Repr

/-- The reasons a step can stop the machine: none. Every byte string presented is answered, and the
block "cannot hang, halt, sleep or refuse to answer" (70_reset_and_hazards.md R309); an error status is
a response, after which the block goes on (60_exceptions.md R263, R264). Nobody raises a fault: safe.
Log entry 12. -/
inductive Fault : Type
  deriving DecidableEq, Repr

/-- The reasons a step can have no meaning. -/
inductive Refusal where
  /-- An instruction not modelled yet. Every instruction is modelled, so nobody raises it; safe. -/
  | notModelled (mnemonic : String)
  deriving DecidableEq, Repr

/-- The registers after reset (10_state.md R41, 70_reset_and_hazards.md R300). -/
def Regs.reset : Regs where
  keyv := false
  fam := .des
  key := Bytes.zero 24
  iv := Bytes.zero 16
  cinit := false
  ck := Bytes.zero 16
  k1 := Bytes.zero 16
  k2 := Bytes.zero 16
  x := Bytes.zero 16
  buf := Bytes.zero 16
  blen := 0
  lerr := 0

/-- The machine right after reset: the registers as 10_state.md R41 says, no move pending and no
response given (DESIGN CHOICE for the model's own two lists, log entries 4 and 5). -/
def State.reset : State where
  regs := Regs.reset
  pending := []
  responses := []

end Sys2Proof.Machine
end

