-- ==== Sys2Proof/Machine/Operands.lean ====
section
/-! DEFINITION. Operands: byte-string operations, slices, blocks of a payload, and the key, block size
and chaining value a command works with (00_scope.md R7, 20_memory.md R51 to R53). -/

namespace Sys2Proof.Machine

/-- `A xor B`, for strings of equal length (00_scope.md R7). -/
def xorBytes (a b : ByteString) : ByteString := List.zipWith (· ^^^ ·) a b

/-- `B[lo:hi]`, the bytes at indices `lo` to `hi - 1` (00_scope.md R7). -/
def slice (lo hi : Nat) (b : ByteString) : ByteString := (b.drop lo).take (hi - lo)

/-- The first `n` blocks of `bs` bytes of a payload, block 1 first (20_memory.md R51). -/
def blocks (bs : Nat) : Nat → ByteString → List ByteString
  | 0, _ => []
  | n + 1, p => p.take bs :: blocks bs n (p.drop bs)

/-- All the blocks of a payload of whole blocks. -/
def payloadBlocks (bs : Nat) (p : ByteString) : List ByteString := blocks bs (p.length / bs) p

/-- The payload is a positive whole number of blocks (20_memory.md R52, CBC.OUT and CBC.IN). -/
def isWholeBlocks (bs : Nat) (p : ByteString) : Bool :=
  decide (p.length ≠ 0) && decide (p.length % bs = 0)

/-- The block size of the loaded family, `bs(FAM)` (10_state.md R24). -/
def Regs.blockSize (r : Regs) : Nat := Config.bs r.fam

/-- The key of every cipher operation of the adapter, `KEY[0:kl(FAM)]` (10_state.md R25). -/
def Regs.loadedKey (r : Regs) : ByteString := slice 0 (Config.kl r.fam) r.key.data

/-- The chaining value the next CBC command starts from, `IV[0:bs(FAM)]` (10_state.md R26). -/
def Regs.chainValue (r : Regs) : ByteString := slice 0 r.blockSize r.iv.data

/-- The adapter encrypting one block under the loaded key (40_block_cipher_adapter.md R100). -/
def encryptBlock (r : Regs) (b : ByteString) : CipherProg ByteString :=
  callEnc r.fam r.loadedKey b

/-- The adapter decrypting one block under the loaded key (40_block_cipher_adapter.md R100). -/
def decryptBlock (r : Regs) (b : ByteString) : CipherProg ByteString :=
  callDec r.fam r.loadedKey b

/-- The CMAC engine's cipher call, always `BCE(AES, CK, ·)` (40_block_cipher_adapter.md R109). -/
def cmacEncrypt (ck : Bytes 16) (b : ByteString) : CipherProg ByteString :=
  callEnc .aes ck.data b

/-- The number of MAC bytes CMAC.FINAL returns: 0 asks for the default, `CMAC_DEFAULT_N`
(42_cmac_engine.md R176). -/
def macLength (defaultN : Nat) (n : Byte) : Nat := if n = 0 then defaultN else n.toNat

end Sys2Proof.Machine
end

