-- ==== Sys2Proof/Machine/Ops.lean ====
section
/-! DEFINITION. The operations the meanings share: ending a command with a response or an error, the
host's moves, the four CBC procedures, and the steps of the CMAC engine. -/

namespace Sys2Proof.Machine

/-! ## How a command ends -/

/-- What the pseudocode of a command comes to (00_scope.md R9): `raise <Error>`, or `return OK(D)` with
the registers it has written. -/
abbrev Result := Except CmdError (Regs × ByteString)

/-- Taking an error, the block's only exceptional event (60_exceptions.md R263): `LERR <- ST` and no
other register, and the response `ST 00 00`. There is no handler and no return (R264). -/
def State.raise (s : State) (e : CmdError) : State :=
  { s with
    regs := { s.regs with lerr := errorCode e }
    responses := s.responses ++ [responseFrame (errorCode e) []] }

/-- Ending with `OK(D)`: the registers as the command left them, and the response with status 0x00 and
data `D` (30_encoding.md R71). -/
def State.reply (s : State) (r : Regs) (d : ByteString) : State :=
  { s with regs := r, responses := s.responses ++ [responseFrame 0 d] }

/-- Ending a command: its result becomes the next state. A command always answers (R309). -/
def State.finish (s : State) (res : Result) : Host.Outcome State Fault Refusal :=
  match res with
  | .error e => .next (s.raise e)
  | .ok (r, d) => .next (s.reply r d)

/-- The reset event: every register to its reset value, and no response (70_reset_and_hazards.md R300). -/
def State.hostReset (s : State) : State := { s with regs := Regs.reset }

/-! ## CBC procedures (41_cbc_modes.md R131 to R134)

Each takes the cipher of the loaded key as a computation, a starting chaining value and the payload's
blocks. They stay four separate functions (R130). -/

/-- StdOut, standard CBC outgoing (R131). -/
def stdOut (enc : ByteString → CipherProg ByteString) :
    ByteString → List ByteString → CipherProg (List ByteString)
  | _, [] => .done []
  | prev, p :: ps => (enc (xorBytes p prev)).bind fun o => (stdOut enc o ps).map (o :: ·)

/-- StdIn, standard CBC incoming (R132). -/
def stdIn (dec : ByteString → CipherProg ByteString) :
    ByteString → List ByteString → CipherProg (List ByteString)
  | _, [] => .done []
  | prev, p :: ps => (dec p).bind fun d => (stdIn dec p ps).map (xorBytes d prev :: ·)

/-- LegSend, legacy send mode: the reader decrypts (R133). -/
def legSend (dec : ByteString → CipherProg ByteString) :
    ByteString → List ByteString → CipherProg (List ByteString)
  | _, [] => .done []
  | prev, p :: ps => (dec (xorBytes p prev)).bind fun o => (legSend dec o ps).map (o :: ·)

/-- LegRecv, legacy receive mode (R134); `chain` is `LRECV_CHAIN`. -/
def legRecv (chain : Config.LrecvChain) (dec : ByteString → CipherProg ByteString) :
    ByteString → List ByteString → CipherProg (List ByteString)
  | _, [] => .done []
  | prev, p :: ps =>
    (dec p).bind fun d =>
      let o := xorBytes d prev
      let next := match chain with
        | .prevCiphered => p
        | .prevPlain => o
      (legRecv chain dec next ps).map (o :: ·)

/-- The blocks CBC.OUT returns: the discipline follows from `FAM` alone (41_cbc_modes.md R130, R139). -/
def cbcOutBlocks (r : Regs) (ps : List ByteString) : CipherProg (List ByteString) :=
  match Config.discipline r.fam with
  | .standard => stdOut (encryptBlock r) r.chainValue ps
  | .legacy => legSend (decryptBlock r) r.chainValue ps

/-- The blocks CBC.IN returns (41_cbc_modes.md R130, R140). -/
def cbcInBlocks (chain : Config.LrecvChain) (r : Regs) (ps : List ByteString) :
    CipherProg (List ByteString) :=
  match Config.discipline r.fam with
  | .standard => stdIn (decryptBlock r) r.chainValue ps
  | .legacy => legRecv chain (decryptBlock r) r.chainValue ps

/-- The `IV` carried out of a CBC command: the last of the given ciphered blocks, zero-padded
(41_cbc_modes.md R135). -/
def carryIv (ciphered : List ByteString) : Bytes 16 := Bytes.ofList 16 (ciphered.getLastD [])

/-! ## CMAC engine (42_cmac_engine.md) -/

/-- Shift a string left by one bit, byte 0 most significant; a zero bit enters at the bottom (R171). -/
def shiftLeftOne : ByteString → ByteString
  | [] => []
  | [b] => [b <<< 1]
  | b :: c :: r => ((b <<< 1) ||| (c >>> 7)) :: shiftLeftOne (c :: r)

/-- XOR a constant into the last byte (R171). -/
def xorLast (k : Byte) : ByteString → ByteString
  | [] => []
  | [b] => [b ^^^ k]
  | b :: c :: r => b :: xorLast k (c :: r)

/-- The doubling `dbl` (R171): the top bit is examined before the shift. -/
def dbl (v : Bytes 16) : Bytes 16 :=
  let y := shiftLeftOne v.data
  Bytes.ofList 16 (if (v.data.headD 0) >>> 7 = 1 then xorLast Config.cmacRb y else y)

/-- Start a new message: `X`, `BUF`, `BLEN` zero (10_state.md R32, R33). -/
def Regs.restartMessage (r : Regs) : Regs :=
  { r with x := Bytes.zero 16, buf := Bytes.zero 16, blen := 0 }

/-- Install a CMAC key and its subkeys, and start a message (R172). `K0` is not kept. -/
def Regs.installCmacKey (r : Regs) (ck : Bytes 16) : CipherProg Regs :=
  (cmacEncrypt ck (zeros 16)).map fun k0 =>
    let k1 := dbl (Bytes.ofList 16 k0)
    { r.restartMessage with cinit := true, ck := ck, k1 := k1, k2 := dbl k1 }

/-- When a full block is held and more data has come, it was not the last block: chain it in (R174). -/
def Regs.flushFull (r : Regs) : CipherProg Regs :=
  if r.blen = 16 then
    (cmacEncrypt r.ck (xorBytes r.x.data r.buf.data)).map fun x =>
      { r with x := Bytes.ofList 16 x, buf := Bytes.zero 16, blen := 0 }
  else .done r

/-- Hold one more message byte: `BUF[BLEN] <- P[i]; BLEN <- BLEN + 1` (R174). -/
def Regs.holdByte (r : Regs) (b : Byte) : Regs :=
  { r with buf := r.buf.set r.blen.val b, blen := r.blen + 1 }

/-- One turn of the loop of CMAC.UPDATE (R174). -/
def absorbByte (r : Regs) (b : Byte) : CipherProg Regs := r.flushFull.map (·.holdByte b)

/-- The loop of CMAC.UPDATE (R174). -/
def absorb : Regs → ByteString → CipherProg Regs
  | r, [] => .done r
  | r, b :: p => (absorbByte r b).bind fun r' => absorb r' p

/-- `lastblock()`: the held-back block completed and masked with a subkey (R175). -/
def lastBlock (r : Regs) : ByteString :=
  if r.blen = 16 then xorBytes r.buf.data r.k1.data
  else
    xorBytes (slice 0 r.blen.val r.buf.data ++ (0x80 : Byte) :: zeros (15 - r.blen.val)) r.k2.data

/-- The whole 16-byte MAC `T` of the message in progress (R176). -/
def macOf (r : Regs) : CipherProg ByteString := cmacEncrypt r.ck (xorBytes r.x.data (lastBlock r))

end Sys2Proof.Machine
end

