-- ==== Sys2Proof/Machine/Adapter.lean ====
section
/-! DEFINITION. Block Cipher Adapter: KEY.LOAD, KEY.CLEAR, ECB.ENC, ECB.DEC
(40_block_cipher_adapter.md). The commands that run the cipher are computations with calls (`…Prog`), run
under given parameters (`…With`, 00_scope.md R10); the machine's meanings give them `Config.params`. -/

namespace Sys2Proof.Machine

/-- KEY.LOAD (R104): a key and its family, stored as given; `IV` is zeroed. -/
def execKeyLoad (f : Family) (p : ByteString) (s : State) : Host.Outcome State Fault Refusal :=
  s.finish <|
    if p.length ≠ Config.kl f then .error .invalidKey
    else
      .ok ({ s.regs with
              fam := f
              key := Bytes.ofList 24 p
              keyv := true
              iv := Bytes.zero 16 }, [])

/-- KEY.CLEAR (R105): discard the adapter key and the chaining value; the CMAC engine is untouched. -/
def execKeyClear (p : ByteString) (s : State) : Host.Outcome State Fault Refusal :=
  s.finish <|
    if p.length ≠ 0 then .error .badLength
    else
      .ok ({ s.regs with
              keyv := false
              fam := .des
              key := Bytes.zero 24
              iv := Bytes.zero 16 }, [])

/-- ECB.ENC (R106): encrypt one block. -/
def ecbEncProg (p : ByteString) (r : Regs) : CipherProg Result :=
  if r.keyv = false then .done (.error .noKey)
  else if p.length ≠ r.blockSize then .done (.error .badLength)
  else (encryptBlock r p).map fun o => .ok (r, o)

/-- ECB.ENC under given parameters (R106). -/
def ecbEncWith (c : Config.Params) (p : ByteString) (s : State) :
    Host.Outcome State Fault Refusal :=
  s.finish ((ecbEncProg p s.regs).run c)

/-- ECB.ENC: encrypt one block (R106). -/
def execEcbEnc (p : ByteString) (s : State) : Host.Outcome State Fault Refusal :=
  ecbEncWith Config.params p s

/-- ECB.DEC (R107): decrypt one block. -/
def ecbDecProg (p : ByteString) (r : Regs) : CipherProg Result :=
  if r.keyv = false then .done (.error .noKey)
  else if p.length ≠ r.blockSize then .done (.error .badLength)
  else (decryptBlock r p).map fun o => .ok (r, o)

/-- ECB.DEC under given parameters (R107). -/
def ecbDecWith (c : Config.Params) (p : ByteString) (s : State) :
    Host.Outcome State Fault Refusal :=
  s.finish ((ecbDecProg p s.regs).run c)

/-- ECB.DEC: decrypt one block (R107). -/
def execEcbDec (p : ByteString) (s : State) : Host.Outcome State Fault Refusal :=
  ecbDecWith Config.params p s

end Sys2Proof.Machine
end

