-- ==== Sys2Proof/Machine/Cbc.lean ====
section
/-! DEFINITION. CBC Chaining Modes: IV.ZERO, IV.LOAD, IV.GET, CBC.OUT, CBC.IN (41_cbc_modes.md). -/

namespace Sys2Proof.Machine

/-- IV.ZERO (R136): set the chaining value to zero; no key is needed. -/
def execIvZero (p : ByteString) (s : State) : Host.Outcome State Fault Refusal :=
  s.finish <|
    if p.length ≠ 0 then .error .badLength
    else .ok ({ s.regs with iv := Bytes.zero 16 }, [])

/-- IV.LOAD (R137): set the chaining value to one block. -/
def execIvLoad (p : ByteString) (s : State) : Host.Outcome State Fault Refusal :=
  s.finish <|
    if s.regs.keyv = false then .error .noKey
    else if p.length ≠ s.regs.blockSize then .error .badLength
    else .ok ({ s.regs with iv := Bytes.ofList 16 p }, [])

/-- IV.GET (R138): read the chaining value. -/
def execIvGet (p : ByteString) (s : State) : Host.Outcome State Fault Refusal :=
  s.finish <|
    if s.regs.keyv = false then .error .noKey
    else if p.length ≠ 0 then .error .badLength
    else .ok (s.regs, s.regs.chainValue)

/-- CBC.OUT (R139): the last output block is carried (R135). -/
def cbcOutProg (p : ByteString) (r : Regs) : CipherProg Result :=
  if r.keyv = false then .done (.error .noKey)
  else if isWholeBlocks r.blockSize p = false then .done (.error .badLength)
  else
    (cbcOutBlocks r (payloadBlocks r.blockSize p)).map fun os =>
      .ok ({ r with iv := carryIv os }, os.flatten)

/-- CBC.OUT under given parameters (R139). -/
def cbcOutWith (c : Config.Params) (p : ByteString) (s : State) :
    Host.Outcome State Fault Refusal :=
  s.finish ((cbcOutProg p s.regs).run c)

/-- CBC.OUT: chain and cipher a payload in the direction outgoing-to-card (R139). -/
def execCbcOut (p : ByteString) (s : State) : Host.Outcome State Fault Refusal :=
  cbcOutWith Config.params p s

/-- CBC.IN (R140): the last payload block is carried, under either value of `LRECV_CHAIN` (R135; log
entry 13). -/
def cbcInProg (chain : Config.LrecvChain) (p : ByteString) (r : Regs) : CipherProg Result :=
  if r.keyv = false then .done (.error .noKey)
  else if isWholeBlocks r.blockSize p = false then .done (.error .badLength)
  else
    let ps := payloadBlocks r.blockSize p
    (cbcInBlocks chain r ps).map fun os => .ok ({ r with iv := carryIv ps }, os.flatten)

/-- CBC.IN under given parameters (R140). -/
def cbcInWith (c : Config.Params) (p : ByteString) (s : State) :
    Host.Outcome State Fault Refusal :=
  s.finish ((cbcInProg c.lrecvChain p s.regs).run c)

/-- CBC.IN: decipher and unchain a payload in the direction incoming-from-card (R140). -/
def execCbcIn (p : ByteString) (s : State) : Host.Outcome State Fault Refusal :=
  cbcInWith Config.params p s

end Sys2Proof.Machine
end

