-- ==== Sys2Proof/Machine/Cmac.lean ====
section
/-! DEFINITION. CMAC Engine: CMAC.INIT, CMAC.UPDATE, CMAC.FINAL (42_cmac_engine.md). -/

namespace Sys2Proof.Machine

/-- CMAC.INIT (R172): `t` is the family tag; only 0x03 (AES) is accepted. -/
def cmacInitProg (t : Byte) (p : ByteString) (r : Regs) : CipherProg Result :=
  if t ≠ familyCode .aes ∨ p.length ≠ 16 then .done (.error .invalidKey)
  else (r.installCmacKey (Bytes.ofList 16 p)).map fun r' => .ok (r', [])

/-- CMAC.INIT under given parameters (R172). -/
def cmacInitWith (c : Config.Params) (t : Byte) (p : ByteString) (s : State) :
    Host.Outcome State Fault Refusal :=
  s.finish ((cmacInitProg t p s.regs).run c)

/-- CMAC.INIT: install a key and derive the subkeys (R172). -/
def execCmacInit (t : Byte) (p : ByteString) (s : State) : Host.Outcome State Fault Refusal :=
  cmacInitWith Config.params t p s

/-- CMAC.UPDATE (R174): every payload length is accepted. -/
def cmacUpdateProg (p : ByteString) (r : Regs) : CipherProg Result :=
  if r.cinit = false then .done (.error .notInitialized)
  else (absorb r p).map fun r' => .ok (r', [])

/-- CMAC.UPDATE under given parameters (R174). -/
def cmacUpdateWith (c : Config.Params) (p : ByteString) (s : State) :
    Host.Outcome State Fault Refusal :=
  s.finish ((cmacUpdateProg p s.regs).run c)

/-- CMAC.UPDATE: feed message bytes (R174). -/
def execCmacUpdate (p : ByteString) (s : State) : Host.Outcome State Fault Refusal :=
  cmacUpdateWith Config.params p s

/-- CMAC.FINAL (R176): `n` is the requested MAC length, `defaultN` is `CMAC_DEFAULT_N`. -/
def cmacFinalProg (defaultN : Nat) (n : Byte) (p : ByteString) (r : Regs) : CipherProg Result :=
  if Config.cmacMaxN < n.toNat then .done (.error .badArg)
  else if r.cinit = false then .done (.error .notInitialized)
  else if p.length ≠ 0 then .done (.error .badLength)
  else (macOf r).map fun t => .ok (r.restartMessage, t.take (macLength defaultN n))

/-- CMAC.FINAL under given parameters (R176). -/
def cmacFinalWith (c : Config.Params) (n : Byte) (p : ByteString) (s : State) :
    Host.Outcome State Fault Refusal :=
  s.finish ((cmacFinalProg c.cmacDefaultN n p s.regs).run c)

/-- CMAC.FINAL: finish the message and return the MAC (R176). -/
def execCmacFinal (n : Byte) (p : ByteString) (s : State) : Host.Outcome State Fault Refusal :=
  cmacFinalWith Config.params n p s

end Sys2Proof.Machine
end

