-- ==== Sys2Proof/Machine/SessionKey.lean ====
section
/-! DEFINITION. Session Key Derivation and byte utilities: SKD.DERIVE, ROTL1, KEY.PREP
(43_session_key_and_bytes.md). They read and write no register but `LERR` on error. -/

namespace Sys2Proof.Machine

/-- The session key of the two nonces, `a` = RndA and `b` = RndB (R211, R212). -/
def sessionKey (f : Family) (a b : ByteString) : ByteString :=
  match f with
  | .des => slice 0 4 a ++ slice 0 4 b
  | .tdes2 => slice 0 4 a ++ slice 0 4 b ++ slice 4 8 a ++ slice 4 8 b
  | .tdes3 =>
    slice 0 4 a ++ slice 0 4 b ++ slice 6 10 a ++ slice 6 10 b ++ slice 12 16 a ++ slice 12 16 b
  | .aes => slice 0 4 a ++ slice 0 4 b ++ slice 12 16 a ++ slice 12 16 b

/-- SKD.DERIVE (R211): the payload is RndA then RndB. -/
def execSkdDerive (f : Family) (p : ByteString) (s : State) : Host.Outcome State Fault Refusal :=
  s.finish <|
    if p.length ≠ 2 * Config.nl f then .error .badLength
    else
      .ok (s.regs,
        sessionKey f (slice 0 (Config.nl f) p) (slice (Config.nl f) (2 * Config.nl f) p))

/-- Rotate a byte string left by one byte: the first byte goes to the end (R213). -/
def rotateLeftOne (p : ByteString) : ByteString := slice 1 p.length p ++ slice 0 1 p

/-- ROTL1 (R213). -/
def execRotl1 (p : ByteString) (s : State) : Host.Outcome State Fault Refusal :=
  s.finish <|
    if p.length = 0 then .error .badLength
    else .ok (s.regs, rotateLeftOne p)

/-- Clear the key-version bits of a DES-family key; an AES key is returned unchanged (R214). -/
def preparedKey (f : Family) (p : ByteString) : ByteString :=
  match f with
  | .aes => p
  | .des => p.map (· &&& 0xFE)
  | .tdes2 => p.map (· &&& 0xFE)
  | .tdes3 => p.map (· &&& 0xFE)

/-- KEY.PREP (R214): validate a key's length and clear its key-version bits; nothing is loaded. -/
def execKeyPrep (f : Family) (p : ByteString) (s : State) : Host.Outcome State Fault Refusal :=
  s.finish <|
    if p.length ≠ Config.kl f then .error .invalidKey
    else .ok (s.regs, preparedKey f p)

end Sys2Proof.Machine
end

