-- ==== Sys2Proof/Machine/Flags.lean ====
section
/-! DEFINITION. The block has no condition codes (10_state.md R37); its only flag computation is the
status report of STAT (44_system_commands.md R231). -/

namespace Sys2Proof.Machine

/-- A flag as a number. -/
def flagBit (b : Bool) : Byte := if b then 1 else 0

/-- `FLAGS = KEYV | (CINIT << 1)`: bit 0 `KEYV`, bit 1 `CINIT`, bits 7 to 2 zero
(44_system_commands.md R231). -/
def flagsByte (r : Regs) : Byte := flagBit r.keyv ||| (flagBit r.cinit <<< 1)

/-- The four bytes STAT returns: `FLAGS`, `FAM`, `BLEN`, `LERR` (44_system_commands.md R231). -/
def statusReport (r : Regs) : ByteString :=
  [flagsByte r, familyCode r.fam, BitVec.ofNat 8 r.blen.val, r.lerr]

end Sys2Proof.Machine
end

