-- ==== Sys2Proof/Machine/System.lean ====
section
/-! DEFINITION. System commands ZEROIZE and STAT (44_system_commands.md). -/

namespace Sys2Proof.Machine

/-- ZEROIZE (R230): every register except `LERR` to its reset value. -/
def execZeroize (p : ByteString) (s : State) : Host.Outcome State Fault Refusal :=
  s.finish <|
    if p.length ≠ 0 then .error .badLength
    else .ok ({ Regs.reset with lerr := s.regs.lerr }, [])

/-- STAT (R231): report the non-secret state. -/
def execStat (p : ByteString) (s : State) : Host.Outcome State Fault Refusal :=
  s.finish <|
    if p.length ≠ 0 then .error .badLength
    else .ok (s.regs, statusReport s.regs)

end Sys2Proof.Machine
end

