-- ==== Sys2Proof/Machine/Dispatch.lean ====
section
/-! DEFINITION. One arm per command (30_encoding.md R73, R79). -/

namespace Sys2Proof.Machine

/-- Executing a decoded command (20_memory.md R56: one atomic transition). -/
def exec (i : Instr) (s : State) : Host.Outcome State Fault Refusal :=
  match i with
  | .zeroize p => Sys2Proof.Machine.execZeroize p s
  | .stat p => Sys2Proof.Machine.execStat p s
  | .keyLoad f p => Sys2Proof.Machine.execKeyLoad f p s
  | .keyClear p => Sys2Proof.Machine.execKeyClear p s
  | .ecbEnc p => Sys2Proof.Machine.execEcbEnc p s
  | .ecbDec p => Sys2Proof.Machine.execEcbDec p s
  | .ivZero p => Sys2Proof.Machine.execIvZero p s
  | .ivLoad p => Sys2Proof.Machine.execIvLoad p s
  | .ivGet p => Sys2Proof.Machine.execIvGet p s
  | .cbcOut p => Sys2Proof.Machine.execCbcOut p s
  | .cbcIn p => Sys2Proof.Machine.execCbcIn p s
  | .cmacInit t p => Sys2Proof.Machine.execCmacInit t p s
  | .cmacUpdate p => Sys2Proof.Machine.execCmacUpdate p s
  | .cmacFinal n p => Sys2Proof.Machine.execCmacFinal n p s
  | .skdDerive f p => Sys2Proof.Machine.execSkdDerive f p s
  | .rotl1 p => Sys2Proof.Machine.execRotl1 p s
  | .keyPrep f p => Sys2Proof.Machine.execKeyPrep f p s

end Sys2Proof.Machine
end

