-- ==== Sys2Proof/Machine/Step.lean ====
section
/-! DEFINITION. One step: the next move of the host (70_reset_and_hazards.md R300, R301, R310). -/

namespace Sys2Proof.Machine

/-- One step. A frame is decoded and executed, or ends in its decode error; a reset sets the registers
and returns no response; with no move pending the block does nothing (R301, log entry 6). -/
def step (s : State) : Host.Outcome State Fault Refusal :=
  match s.pending with
  | [] => .next s
  | .reset :: ms => .next { s with pending := ms }.hostReset
  | .frame f :: ms =>
    match decode f with
    | .ok i => exec i { s with pending := ms }
    | .error e => .next ({ s with pending := ms }.raise e)

/-- The state in which the very next step runs the table word `w` of `nbits` bits: its frame is the next
move of the host. A host presents its commands from outside; log entry 8. -/
def State.withFetchWord (s : State) (nbits w : Nat) : State :=
  { s with pending := .frame (tableFrame nbits w) :: s.pending }

end Sys2Proof.Machine
end

