-- ==== Sys2Proof/Machine/Cost.lean ====
section
/-! DEFINITION. The cipher calls of a command, and their number, the abstract cost of
70_reset_and_hazards.md R308. The calls are those of the meanings themselves: each meaning that uses the
cipher is the run of its computation, and this file lists the calls of the same computation. The model is
untimed and no step reads the numbers. Log entry 15. -/

namespace Sys2Proof.Machine

/-- A command as a computation with cipher calls. A command whose meaning takes no cipher has none. -/
def commandProg (chain : Config.LrecvChain) (defaultN : Nat) (i : Instr) (s : State) :
    CipherProg (Host.Outcome State Fault Refusal) :=
  match i with
  | .ecbEnc p => (ecbEncProg p s.regs).map s.finish
  | .ecbDec p => (ecbDecProg p s.regs).map s.finish
  | .cbcOut p => (cbcOutProg p s.regs).map s.finish
  | .cbcIn p => (cbcInProg chain p s.regs).map s.finish
  | .cmacInit t p => (cmacInitProg t p s.regs).map s.finish
  | .cmacUpdate p => (cmacUpdateProg p s.regs).map s.finish
  | .cmacFinal n p => (cmacFinalProg defaultN n p s.regs).map s.finish
  | .zeroize p => .done (execZeroize p s)
  | .stat p => .done (execStat p s)
  | .keyLoad f p => .done (execKeyLoad f p s)
  | .keyClear p => .done (execKeyClear p s)
  | .ivZero p => .done (execIvZero p s)
  | .ivLoad p => .done (execIvLoad p s)
  | .ivGet p => .done (execIvGet p s)
  | .skdDerive f p => .done (execSkdDerive f p s)
  | .rotl1 p => .done (execRotl1 p s)
  | .keyPrep f p => .done (execKeyPrep f p s)

/-- Executing a command under given parameters: the `…With` meanings where the cipher is used. -/
def execWith (c : Config.Params) (i : Instr) (s : State) : Host.Outcome State Fault Refusal :=
  match i with
  | .ecbEnc p => ecbEncWith c p s
  | .ecbDec p => ecbDecWith c p s
  | .cbcOut p => cbcOutWith c p s
  | .cbcIn p => cbcInWith c p s
  | .cmacInit t p => cmacInitWith c t p s
  | .cmacUpdate p => cmacUpdateWith c p s
  | .cmacFinal n p => cmacFinalWith c n p s
  | .zeroize p => execZeroize p s
  | .stat p => execStat p s
  | .keyLoad f p => execKeyLoad f p s
  | .keyClear p => execKeyClear p s
  | .ivZero p => execIvZero p s
  | .ivLoad p => execIvLoad p s
  | .ivGet p => execIvGet p s
  | .skdDerive f p => execSkdDerive f p s
  | .rotl1 p => execRotl1 p s
  | .keyPrep f p => execKeyPrep f p s

/-- The calls a command makes in state `s` under given parameters, in order. -/
def callTrace (c : Config.Params) (i : Instr) (s : State) : List CipherCall :=
  (commandProg c.lrecvChain c.cmacDefaultN i s).trace c

/-- Numbers of `BCE` and of `BCD` calls. -/
structure Calls where
  enc : Nat
  dec : Nat
  deriving DecidableEq, Repr

/-- How many calls of a list are of each function. -/
def countCalls (t : List CipherCall) : Calls :=
  ⟨t.countP (·.dir = .enc), t.countP (·.dir = .dec)⟩

/-- The numbers of cipher calls of a command (70_reset_and_hazards.md R308). -/
def cipherCalls (c : Config.Params) (i : Instr) (s : State) : Calls := countCalls (callTrace c i s)

end Sys2Proof.Machine
end

