-- ==== Sys2Proof/Safety.lean ====
section
/-! DEFINITION. What claims about the machine are stated with: the invariants the spec gives the
registers, the form of a response, and answering. -/

namespace Sys2Proof.Machine

/-- The first subkey of a CMAC key: `dbl(K0)` with `K0 = BCE(AES, CK, zeros(16))` (10_state.md R31). -/
def subkey1 (c : Config.Params) (ck : Bytes 16) : Bytes 16 :=
  dbl (Bytes.ofList 16 (c.enc .aes ck.data (zeros 16)))

/-- The second subkey of a CMAC key: `dbl(K1)` (10_state.md R31). -/
def subkey2 (c : Config.Params) (ck : Bytes 16) : Bytes 16 := dbl (subkey1 c ck)

/-- The invariants of the twelve registers (10_state.md R23, R25, R26, R30 to R33; 60_exceptions.md
R260). -/
structure Regs.Inv (c : Config.Params) (r : Regs) : Prop where
  /-- While `KEYV = 0`, `FAM`, `KEY` and `IV` are all zero (R23). -/
  noKey : r.keyv = false → r.fam = .des ∧ r.key = Bytes.zero 24 ∧ r.iv = Bytes.zero 16
  /-- `KEY[kl(FAM):24]` is zero (R25). -/
  keyPadded : ∀ i, Config.kl r.fam ≤ i → i < 24 → r.key.data[i]? = some 0
  /-- `IV[bs(FAM):16]` is zero (R26). -/
  ivPadded : ∀ i, Config.bs r.fam ≤ i → i < 16 → r.iv.data[i]? = some 0
  /-- While `CINIT = 0`, `CK`, `K1`, `K2`, `X`, `BUF` are zero and `BLEN = 0` (R30). -/
  noCmac : r.cinit = false →
    r.ck = Bytes.zero 16 ∧ r.k1 = Bytes.zero 16 ∧ r.k2 = Bytes.zero 16 ∧
      r.x = Bytes.zero 16 ∧ r.buf = Bytes.zero 16 ∧ r.blen = 0
  /-- While `CINIT = 1`, `K1` and `K2` are the subkeys of `CK` (R31). -/
  subkeys : r.cinit = true → r.k1 = subkey1 c r.ck ∧ r.k2 = subkey2 c r.ck
  /-- `BUF[i] = 0x00` for every `i >= BLEN` (R33). -/
  bufPadded : ∀ i, r.blen.val ≤ i → i < 16 → r.buf.data[i]? = some 0
  /-- `BLEN = 0` only while no byte of the message has been given; then `X` is zero (R32, R33). -/
  freshMessage : r.blen = 0 → r.x = Bytes.zero 16
  /-- `LERR` is 0x00 or an error status (R36, R260). -/
  statusRange : r.lerr.toNat ≤ 7

/-- A byte string is a response frame (30_encoding.md R71, 60_exceptions.md R260): its length field is
the length of its data, its status is at most 0x07, and an error carries no data. -/
def IsResponse (f : ByteString) : Prop :=
  ∃ st d, f = responseFrame st d ∧ d.length ≤ Config.maxPayload ∧ st.toNat ≤ 7 ∧ (st ≠ 0 → d = [])

/-- The invariant of the whole state: the registers', and every response given is a response frame. -/
structure State.Inv (s : State) : Prop where
  regs : s.regs.Inv Config.params
  responses : ∀ f ∈ s.responses, IsResponse f

/-- The command ends with `OK(D)` and the registers `r`: the one response added is `00 RLEN D`, and
nothing else of the state changes (30_encoding.md R71). -/
abbrev Answers (o : Host.Outcome State Fault Refusal) (s : State) (r : Regs) (d : ByteString) : Prop :=
  o = .next { s with
    regs := r
    responses := s.responses ++ [[0x00, BitVec.ofNat 8 (d.length / 256), BitVec.ofNat 8 d.length] ++ d] }

/-- The command ends with error status `st`: the one response added is `ST 00 00`, `LERR` becomes
`ST`, and nothing else of the state changes (60_exceptions.md R263). -/
abbrev Errs (o : Host.Outcome State Fault Refusal) (s : State) (st : Byte) : Prop :=
  o = .next { s with
    regs := { s.regs with lerr := st }
    responses := s.responses ++ [[st, 0x00, 0x00]] }

/-- The state in which the host's next move is to present the byte string `f`. -/
abbrev State.presenting (s : State) (f : ByteString) : State :=
  { s with pending := .frame f :: s.pending }

/-- Commands executed in order, each after the response to the one before (45_host_protocol.md R241). -/
def execAll : List Instr → State → Host.Outcome State Fault Refusal
  | [], s => .next s
  | i :: is, s =>
    match exec i s with
    | .next s' => execAll is s'
    | .fault r => .fault r
    | .refused r => .refused r

/-- A byte string read as one number, byte 0 most significant (00_scope.md R8). -/
def beNumber (b : ByteString) : Nat := b.foldl (fun a x => 256 * a + x.toNat) 0

/-! ## The checks of a frame, as the spec's tables give them

These restate 20_memory.md R52, 30_encoding.md R72, R74, R76 and 60_exceptions.md R261, R262 over the raw
bytes of a frame, apart from the decoder and the meanings, so that claims can compare the two. -/

/-- The seventeen opcodes (30_encoding.md R73). -/
def legalOpcodes : List Byte :=
  [0x01, 0x02, 0x10, 0x11, 0x12, 0x13] ++ [0x20, 0x21, 0x22, 0x24, 0x25] ++
    [0x30, 0x31, 0x32, 0x40, 0x41, 0x42]

/-- The opcodes whose `ARG` must be zero (30_encoding.md R74 (a)). -/
def zeroArgOpcodes : List Byte :=
  [0x01, 0x02, 0x11, 0x12, 0x13, 0x20] ++ [0x21, 0x22, 0x24, 0x25, 0x31, 0x41]

/-- The opcodes whose `ARG` is a family code (30_encoding.md R74 (b)). -/
def familyArgOpcodes : List Byte := [0x10, 0x40, 0x42]

/-- The opcode accepts the argument byte (30_encoding.md R74). -/
def argAccepted (op arg : Byte) : Bool :=
  if op ∈ zeroArgOpcodes then arg = 0
  else if op ∈ familyArgOpcodes then arg.toNat ≤ 3
  else if op = 0x32 then arg.toNat ≤ 16
  else true

/-- The commands that need the adapter key (60_exceptions.md R262, check 4). -/
def keyOpcodes : List Byte := [0x12, 0x13, 0x21, 0x22, 0x24, 0x25]

/-- The commands that need the CMAC key (60_exceptions.md R262, check 4). -/
def cmacKeyOpcodes : List Byte := [0x31, 0x32]

/-- The commands whose payload is a key: a wrong length is `InvalidKey` (20_memory.md R52). -/
def keyPayloadOpcodes : List Byte := [0x10, 0x30, 0x42]

/-- The payload length is one the command accepts (20_memory.md R52, the table row by row). -/
def lengthAccepted (r : Regs) (op arg : Byte) (len : Nat) : Bool :=
  let bs := [8, 8, 8, 16].getD (familyCode r.fam).toNat 0
  if op ∈ [0x01, 0x02, 0x11, 0x20, 0x22, 0x32] then len = 0
  else if op ∈ [0x10, 0x42] then len = [8, 16, 24, 16].getD arg.toNat 0
  else if op = 0x30 then len = 16
  else if op ∈ [0x12, 0x13, 0x21] then len = bs
  else if op ∈ [0x24, 0x25] then 0 < len ∧ len % bs = 0
  else if op = 0x40 then len = 2 * [8, 8, 16, 16].getD arg.toNat 0
  else if op = 0x41 then 1 ≤ len
  else true

/-- The status a frame ends with in registers `r`: the first check of 60_exceptions.md R262 that fails
determines it. The tag of CMAC.INIT is one of its operand checks (42_cmac_engine.md R172). -/
def frameStatus (r : Regs) (f : ByteString) : Byte :=
  let op := f.getD 0 0
  let arg := f.getD 1 0
  if f.length < 4 ∨ f.length ≠ 4 + (256 * (f.getD 2 0).toNat + (f.getD 3 0).toNat) then 0x07
  else if op ∉ legalOpcodes then 0x06
  else if argAccepted op arg = false then 0x05
  else if op ∈ keyOpcodes ∧ r.keyv = false then 0x03
  else if op ∈ cmacKeyOpcodes ∧ r.cinit = false then 0x04
  else if op = 0x30 ∧ arg ≠ 0x03 then 0x01
  else if lengthAccepted r op arg (f.length - 4) = false then
    if op ∈ keyPayloadOpcodes then 0x01 else 0x02
  else 0x00

/-- Which command can return which status (60_exceptions.md R261, the table row by row), OK included. -/
def returnableStatuses (op : Byte) : List Byte :=
  if op ∈ [0x01, 0x02, 0x11, 0x20] then [0x00, 0x02, 0x05]
  else if op ∈ [0x10, 0x42] then [0x00, 0x01, 0x05]
  else if op ∈ [0x12, 0x13, 0x21, 0x22, 0x24, 0x25] then [0x00, 0x02, 0x03, 0x05]
  else if op = 0x30 then [0x00, 0x01]
  else if op = 0x31 then [0x00, 0x04, 0x05]
  else if op = 0x32 then [0x00, 0x02, 0x04, 0x05]
  else if op ∈ [0x40, 0x41] then [0x00, 0x02, 0x05]
  else []

/-! ## Which registers a command may write (10_state.md R38) -/

/-- KEY.LOAD, KEY.CLEAR and ZEROIZE write `KEYV`, `FAM`, `KEY`. -/
def writesKey : Instr → Bool
  | .keyLoad _ _ => true
  | .keyClear _ => true
  | .zeroize _ => true
  | .stat _ => false
  | .ecbEnc _ => false
  | .ecbDec _ => false
  | .ivZero _ => false
  | .ivLoad _ => false
  | .ivGet _ => false
  | .cbcOut _ => false
  | .cbcIn _ => false
  | .cmacInit _ _ => false
  | .cmacUpdate _ => false
  | .cmacFinal _ _ => false
  | .skdDerive _ _ => false
  | .rotl1 _ => false
  | .keyPrep _ _ => false

/-- Those, IV.ZERO, IV.LOAD, CBC.OUT and CBC.IN write `IV`. -/
def writesIv : Instr → Bool
  | .keyLoad _ _ => true
  | .keyClear _ => true
  | .zeroize _ => true
  | .ivZero _ => true
  | .ivLoad _ => true
  | .cbcOut _ => true
  | .cbcIn _ => true
  | .stat _ => false
  | .ecbEnc _ => false
  | .ecbDec _ => false
  | .ivGet _ => false
  | .cmacInit _ _ => false
  | .cmacUpdate _ => false
  | .cmacFinal _ _ => false
  | .skdDerive _ _ => false
  | .rotl1 _ => false
  | .keyPrep _ _ => false

/-- CMAC.INIT and ZEROIZE write `CINIT`, `CK`, `K1`, `K2`. -/
def writesCmacKey : Instr → Bool
  | .zeroize _ => true
  | .cmacInit _ _ => true
  | .keyLoad _ _ => false
  | .keyClear _ => false
  | .ivZero _ => false
  | .ivLoad _ => false
  | .cbcOut _ => false
  | .cbcIn _ => false
  | .stat _ => false
  | .ecbEnc _ => false
  | .ecbDec _ => false
  | .ivGet _ => false
  | .cmacUpdate _ => false
  | .cmacFinal _ _ => false
  | .skdDerive _ _ => false
  | .rotl1 _ => false
  | .keyPrep _ _ => false

/-- The three CMAC commands and ZEROIZE write `X`, `BUF`, `BLEN`. -/
def writesMessage : Instr → Bool
  | .zeroize _ => true
  | .cmacInit _ _ => true
  | .cmacUpdate _ => true
  | .cmacFinal _ _ => true
  | .keyLoad _ _ => false
  | .keyClear _ => false
  | .ivZero _ => false
  | .ivLoad _ => false
  | .cbcOut _ => false
  | .cbcIn _ => false
  | .stat _ => false
  | .ecbEnc _ => false
  | .ecbDec _ => false
  | .ivGet _ => false
  | .skdDerive _ _ => false
  | .rotl1 _ => false
  | .keyPrep _ _ => false

/-- The registers of the adapter and CBC units are equal (10_state.md R22). -/
structure SameAdapter (r t : Regs) : Prop where
  keyv : r.keyv = t.keyv
  fam : r.fam = t.fam
  key : r.key = t.key
  iv : r.iv = t.iv

/-- The registers of the CMAC unit are equal (10_state.md R22). -/
structure SameCmac (r t : Regs) : Prop where
  cinit : r.cinit = t.cinit
  ck : r.ck = t.ck
  k1 : r.k1 = t.k1
  k2 : r.k2 = t.k2
  x : r.x = t.x
  buf : r.buf = t.buf
  blen : r.blen = t.blen

/-- The commands of the adapter and CBC units (30_encoding.md R73). -/
def isAdapterCommand (i : Instr) : Bool :=
  opcode i ∈ [0x10, 0x11, 0x12, 0x13, 0x20, 0x21, 0x22, 0x24, 0x25]

/-- The commands of the CMAC unit (30_encoding.md R73). -/
def isCmacCommand (i : Instr) : Bool := opcode i ∈ [0x30, 0x31, 0x32]

/-- SKD.DERIVE, ROTL1 and KEY.PREP (43_session_key_and_bytes.md R215). -/
def isPureCommand (i : Instr) : Bool := opcode i ∈ [0x40, 0x41, 0x42]

/-- The commands whose response is computed with the block cipher: ECB, CBC and CMAC.FINAL
(10_state.md R39). -/
def revealsCipherResult (i : Instr) : Bool := opcode i ∈ [0x12, 0x13, 0x24, 0x25, 0x32]

end Sys2Proof.Machine
end

