-- ==== Sys2Proof/Certificates/Slice0/Obligations.lean ====
section
/-! DEFINITION. The statements for the provers: what the spec's rules say of the machine. Each docstring
names the rules it formalises. -/

open Sys2Proof Sys2Proof.Machine

/-! ## Encoding -/

/-- 30_encoding.md R79: encoding then decoding a command gives it back, with every operand. -/
def Obligations.DecodeEncodeIdentity : Prop :=
  ∀ i : Instr, i.WellFormed → decode (encode i) = .ok i

/-- 30_encoding.md R79: what the decoder accepts is a well-formed command whose encoding is the frame
itself, so no bit of a frame is dropped. -/
def Obligations.EncodeDecodeIdentity : Prop :=
  ∀ (f : ByteString) (i : Instr), decode f = .ok i → i.WellFormed ∧ encode i = f

/-- 30_encoding.md R70, R73 and R78, 95_test_vectors.md: frames written out in the spec decode to the
commands they stand for. -/
def Obligations.SpecFramesDecode : Prop :=
  decode [0x01, 0x00, 0x00, 0x00] = .ok (.zeroize []) ∧
  decode [0x10, 0x00, 0x00, 0x08, 0x13, 0x34, 0x57, 0x79, 0x9b, 0xbc, 0xdf, 0xf1] =
    .ok (.keyLoad .des [0x13, 0x34, 0x57, 0x79, 0x9b, 0xbc, 0xdf, 0xf1]) ∧
  decode [0x21, 0x00, 0x00, 0x08, 0x11, 0x22, 0x33, 0x44, 0x55, 0x66, 0x77, 0x88] =
    .ok (.ivLoad [0x11, 0x22, 0x33, 0x44, 0x55, 0x66, 0x77, 0x88]) ∧
  decode [0x31, 0x00, 0x00, 0x02, 0x61, 0x62] = .ok (.cmacUpdate [0x61, 0x62]) ∧
  decode [0x32, 0x08, 0x00, 0x00] = .ok (.cmacFinal 8 []) ∧
  decode [0x41, 0x00, 0x00, 0x03, 0x01, 0x02, 0x03] = .ok (.rotl1 [0x01, 0x02, 0x03])

/-- 30_encoding.md R73, R74: each of the seventeen opcodes with an argument it accepts decodes to its own
command, whatever the payload. -/
def Obligations.OpcodeMapDecodes : Prop :=
  ∀ (p : ByteString) (fam : Family) (arg : Byte), p.length ≤ 65535 →
    decode (commandFrame 0x01 0 p) = .ok (.zeroize p) ∧
    decode (commandFrame 0x02 0 p) = .ok (.stat p) ∧
    decode (commandFrame 0x10 (familyCode fam) p) = .ok (.keyLoad fam p) ∧
    decode (commandFrame 0x11 0 p) = .ok (.keyClear p) ∧
    decode (commandFrame 0x12 0 p) = .ok (.ecbEnc p) ∧
    decode (commandFrame 0x13 0 p) = .ok (.ecbDec p) ∧
    decode (commandFrame 0x20 0 p) = .ok (.ivZero p) ∧
    decode (commandFrame 0x21 0 p) = .ok (.ivLoad p) ∧
    decode (commandFrame 0x22 0 p) = .ok (.ivGet p) ∧
    decode (commandFrame 0x24 0 p) = .ok (.cbcOut p) ∧
    decode (commandFrame 0x25 0 p) = .ok (.cbcIn p) ∧
    decode (commandFrame 0x30 arg p) = .ok (.cmacInit arg p) ∧
    decode (commandFrame 0x31 0 p) = .ok (.cmacUpdate p) ∧
    (arg.toNat ≤ 16 → decode (commandFrame 0x32 arg p) = .ok (.cmacFinal arg p)) ∧
    decode (commandFrame 0x40 (familyCode fam) p) = .ok (.skdDerive fam p) ∧
    decode (commandFrame 0x41 0 p) = .ok (.rotl1 p) ∧
    decode (commandFrame 0x42 (familyCode fam) p) = .ok (.keyPrep fam p)

/-! ## Steps, errors, reset -/

/-- 30_encoding.md R72, 45_host_protocol.md R240: when the host's next move presents a frame that decodes
to `i`, the step is `exec i` in the state in which that move has been made. -/
def Obligations.StepRunsDecodedCommand : Prop :=
  ∀ (s : State) (f : ByteString) (ms : List HostMove) (i : Instr),
    s.pending = .frame f :: ms → decode f = .ok i → step s = exec i { s with pending := ms }

/-- 30_encoding.md R72: a byte string that is not a frame is answered `BadFrame`; any other has its `OP`,
`ARG` and payload read and is decoded by R73 and executed; every byte string is answered. -/
def Obligations.EveryByteStringDecodes : Prop :=
  ∀ (s : State) (f : ByteString),
    ((f.length < 4 ∨ f.length ≠ 4 + (256 * (f.getD 2 0).toNat + (f.getD 3 0).toNat)) →
      Errs (step (s.presenting f)) s 0x07) ∧
    (¬(f.length < 4 ∨ f.length ≠ 4 + (256 * (f.getD 2 0).toNat + (f.getD 3 0).toNat)) →
      step (s.presenting f) =
        match decodeCommand (f.getD 0 0) (f.getD 1 0) (f.drop 4) with
        | .ok i => exec i s
        | .error e => .next (s.raise e)) ∧
    ∃ s', step (s.presenting f) = .next s'

/-- 30_encoding.md R76, R74: every `OP` that is not one of the seventeen, 0x00 among them, is `BadOpcode`,
whatever `ARG`, `LEN` and the payload are; a reserved `ARG` value of one of the seventeen is `BadArg`. -/
def Obligations.ReservedEncodingsRefused : Prop :=
  ∀ (s : State) (op arg : Byte) (p : ByteString), p.length ≤ 65535 →
    (op ∉ ([0x01, 0x02, 0x10, 0x11, 0x12, 0x13, 0x20, 0x21, 0x22, 0x24, 0x25, 0x30, 0x31, 0x32, 0x40,
      0x41, 0x42] : List Byte) → Errs (step (s.presenting (commandFrame op arg p))) s 0x06) ∧
    ((op ∈ ([0x01, 0x02, 0x11, 0x12, 0x13, 0x20, 0x21, 0x22, 0x24, 0x25, 0x31, 0x41] : List Byte) ∧
        arg ≠ 0x00) ∨
      (op ∈ ([0x10, 0x40, 0x42] : List Byte) ∧ 0x04 ≤ arg.toNat) ∨ (op = 0x32 ∧ 0x11 ≤ arg.toNat) →
      Errs (step (s.presenting (commandFrame op arg p))) s 0x05)

/-- 60_exceptions.md R262 with 20_memory.md R52: the status of every frame in every state is the one the
spec's tables of checks give, in their order; a non-zero status ends the frame as an error, and status
0x00 as an answer that leaves `LERR` alone. The argument checks are 30_encoding.md R74, that CMAC.INIT
takes any tag there R74 (c); its clause that a wrong tag is `InvalidKey`, among the operand checks and
before the length, is 42_cmac_engine.md R172 as the model reads it, log entry 19. -/
def Obligations.FrameStatusFollowsCheckOrder : Prop :=
  ∀ (s : State) (f : ByteString),
    (frameStatus s.regs f ≠ 0 → Errs (step (s.presenting f)) s (frameStatus s.regs f)) ∧
    (frameStatus s.regs f = 0 →
      ∃ r d, r.lerr = s.regs.lerr ∧ Answers (step (s.presenting f)) s r d)

/-- 60_exceptions.md R261: a well-formed frame of a command returns only the statuses of its row, and each
of them can occur. -/
def Obligations.ReturnableStatusTable : Prop :=
  ∀ op : Byte, op ∈ legalOpcodes →
    (∀ (s s' : State) (arg : Byte) (p : ByteString), p.length ≤ 65535 →
      step (s.presenting (commandFrame op arg p)) = .next s' →
      ∃ st ∈ returnableStatuses op, ∃ rest, s'.responses = s.responses ++ [st :: rest]) ∧
    (∀ st ∈ returnableStatuses op, ∃ (s s' : State) (arg : Byte) (p d : ByteString),
      p.length ≤ 65535 ∧ step (s.presenting (commandFrame op arg p)) = .next s' ∧
      s'.responses = s.responses ++ [responseFrame st d])

/-- 70_reset_and_hazards.md R309, 30_encoding.md R71, 60_exceptions.md R260: a step over a presented frame
always gives a next state, consumes that one move and adds exactly one response; its length field is
the length of its data, its status at most 0x07, and an error carries no data. -/
def Obligations.EveryFrameAnsweredOnce : Prop :=
  ∀ (s : State) (f : ByteString) (ms : List HostMove), s.pending = .frame f :: ms →
    ∃ (s' : State) (st hi lo : Byte) (d : ByteString),
      step s = .next s' ∧ s'.pending = ms ∧ s'.responses = s.responses ++ [st :: hi :: lo :: d] ∧
      d.length = 256 * hi.toNat + lo.toNat ∧ st.toNat ≤ 7 ∧ (st ≠ 0 → d = [])

/-- 60_exceptions.md R263, 10_state.md R36: a step whose response has a non-zero status writes that status
to `LERR` and changes no other register; one that ends with OK leaves `LERR` as it was. -/
def Obligations.ErrorWritesOnlyLerr : Prop :=
  ∀ (s s' : State) (f : ByteString) (ms : List HostMove),
    s.pending = .frame f :: ms → step s = .next s' →
    ∃ st rest, s'.responses = s.responses ++ [st :: rest] ∧
      (st ≠ 0 → rest = [0x00, 0x00] ∧ s'.regs = { s.regs with lerr := st }) ∧
      (st = 0 → s'.regs.lerr = s.regs.lerr)

/-- 70_reset_and_hazards.md R300, 10_state.md R41: the reset move sets every register to its reset value
and returns no response, and the initial state has the same registers. -/
def Obligations.ResetSetsEveryRegister : Prop :=
  ∀ (s : State) (ms : List HostMove), s.pending = .reset :: ms →
    ∃ r : Regs, step s = .next { regs := r, pending := ms, responses := s.responses } ∧
      State.reset.regs = r ∧
      r.keyv = false ∧ familyCode r.fam = 0 ∧ r.key.data = List.replicate 24 0 ∧
      r.iv.data = List.replicate 16 0 ∧ r.cinit = false ∧ r.ck.data = List.replicate 16 0 ∧
      r.k1.data = List.replicate 16 0 ∧ r.k2.data = List.replicate 16 0 ∧
      r.x.data = List.replicate 16 0 ∧ r.buf.data = List.replicate 16 0 ∧ r.blen.val = 0 ∧ r.lerr = 0

/-- 70_reset_and_hazards.md R301: with no move of the host pending nothing happens. The idle step is the
model's reading (log entry 6). -/
def Obligations.IdleStepChangesNothing : Prop :=
  ∀ s : State, s.pending = [] → step s = .next s

/-! ## Invariants and whole-machine rules -/

/-- 10_state.md R23, R25, R26, R30, R31, R33, 60_exceptions.md R260: every step keeps the invariants of
the registers and the form of the responses. -/
def Obligations.StepKeepsInvariant : Prop :=
  ∀ s s' : State, s.Inv → step s = .next s' → s'.Inv

/-- 10_state.md R41: the invariant holds at reset. -/
def Obligations.ResetMeetsInvariant : Prop := State.reset.Inv

/-- 10_state.md R38: a command writes only the registers of its row; the host's pending moves and the
responses already given stay, and one response is added. -/
def Obligations.CommandsWriteOnlyTheirRegisters : Prop :=
  ∀ (i : Instr) (s s' : State), exec i s = .next s' →
    (writesKey i = false → s'.regs.keyv = s.regs.keyv ∧ s'.regs.fam = s.regs.fam ∧
      s'.regs.key = s.regs.key) ∧
    (writesIv i = false → s'.regs.iv = s.regs.iv) ∧
    (writesCmacKey i = false → s'.regs.cinit = s.regs.cinit ∧ s'.regs.ck = s.regs.ck ∧
      s'.regs.k1 = s.regs.k1 ∧ s'.regs.k2 = s.regs.k2) ∧
    (writesMessage i = false → s'.regs.x = s.regs.x ∧ s'.regs.buf = s.regs.buf ∧
      s'.regs.blen = s.regs.blen) ∧
    s'.pending = s.pending ∧ ∃ f, s'.responses = s.responses ++ [f]

/-- 42_cmac_engine.md R180: an adapter or CBC command leaves the CMAC registers alone and answers by the
adapter registers only; a CMAC command leaves the adapter registers alone and answers by the CMAC
registers only. -/
def Obligations.CipherUnitsAreIndependent : Prop :=
  ∀ (i : Instr) (s t s' t' : State), exec i s = .next s' → exec i t = .next t' →
    s.responses = t.responses →
    (isAdapterCommand i = true → SameAdapter s.regs t.regs →
      SameAdapter s'.regs t'.regs ∧ SameCmac s'.regs s.regs ∧ s'.responses = t'.responses) ∧
    (isCmacCommand i = true → SameCmac s.regs t.regs →
      SameCmac s'.regs t'.regs ∧ SameAdapter s'.regs s.regs ∧ s'.responses = t'.responses)

/-- 43_session_key_and_bytes.md R215: SKD.DERIVE, ROTL1 and KEY.PREP answer by the command alone and
change no register but `LERR`. -/
def Obligations.PureCommandsIgnoreState : Prop :=
  ∀ (i : Instr) (s t s' t' : State), isPureCommand i = true →
    exec i s = .next s' → exec i t = .next t' →
    s'.regs = { s.regs with lerr := s'.regs.lerr } ∧
    ∃ f, s'.responses = s.responses ++ [f] ∧ t'.responses = t.responses ++ [f]

/-- 10_state.md R25, R31, R39: no command but those that return a cipher result (ECB, CBC, CMAC.FINAL)
shows anything of `KEY`, `CK`, `K1`, `K2`, `X` or the bytes of `BUF` in its response. -/
def Obligations.SecretsShowOnlyInCipherResults : Prop :=
  ∀ (i : Instr) (s t s' t' : State), revealsCipherResult i = false →
    s.regs = { t.regs with
      key := s.regs.key, ck := s.regs.ck, k1 := s.regs.k1, k2 := s.regs.k2, x := s.regs.x,
      buf := s.regs.buf } →
    exec i s = .next s' → exec i t = .next t' →
    ∃ f, s'.responses = s.responses ++ [f] ∧ t'.responses = t.responses ++ [f]

/-- 10_state.md R23, R42: a key nothing has loaded is never read: with `KEYV = 0` no response depends on
`KEY` or `IV`, and with `CINIT = 0` none depends on `CK`, `K1`, `K2`, `X` or `BUF`. -/
def Obligations.UnsetKeysAreNeverUsed : Prop :=
  ∀ (i : Instr) (s t s' t' : State), exec i s = .next s' → exec i t = .next t' →
    (s.regs.keyv = false → s.regs = { t.regs with key := s.regs.key, iv := s.regs.iv } →
      ∃ f, s'.responses = s.responses ++ [f] ∧ t'.responses = t.responses ++ [f]) ∧
    (s.regs.cinit = false →
      s.regs = { t.regs with
        ck := s.regs.ck, k1 := s.regs.k1, k2 := s.regs.k2, x := s.regs.x, buf := s.regs.buf } →
      ∃ f, s'.responses = s.responses ++ [f] ∧ t'.responses = t.responses ++ [f])

/-- 70_reset_and_hazards.md R303: ZEROIZE and reset differ in `LERR` only, and from two states that differ
in `LERR` only every step gives the same response, but for the fourth data byte of STAT, and again two
states that differ in `LERR` only. -/
def Obligations.ZeroizeEqualsResetButLerr : Prop :=
  (∀ s : State, Answers (exec (.zeroize []) s) s { State.reset.regs with lerr := s.regs.lerr } []) ∧
  ∀ (s t s' t' : State), s.regs = { t.regs with lerr := s.regs.lerr } → s.pending = t.pending →
    step s = .next s' → step t = .next t' →
    s'.regs = { t'.regs with lerr := s'.regs.lerr } ∧ s'.pending = t'.pending ∧
    ((s'.responses = s.responses ∧ t'.responses = t.responses) ∨
     (∃ f, s'.responses = s.responses ++ [f] ∧ t'.responses = t.responses ++ [f]) ∨
     (∃ (g p : ByteString) (ms : List HostMove) (a b c : Byte),
        s.pending = .frame g :: ms ∧ decode g = .ok (.stat p) ∧
        s'.responses = s.responses ++ [[0, 0, 4, a, b, c, s.regs.lerr]] ∧
        t'.responses = t.responses ++ [[0, 0, 4, a, b, c, t.regs.lerr]]))

/-- 20_memory.md R54: KEY.LOAD, KEY.CLEAR, IV.ZERO, IV.LOAD, CMAC.INIT and ZEROIZE are idempotent. -/
def Obligations.SettingCommandsAreIdempotent : Prop :=
  ∀ (s s1 s2 : State) (f : Family) (t : Byte) (p : ByteString) (i : Instr),
    i ∈ [Instr.keyLoad f p, .keyClear p, .ivZero p, .ivLoad p, .cmacInit t p, .zeroize p] →
    exec i s = .next s1 → exec i s1 = .next s2 → s2.regs = s1.regs

/-- 20_memory.md R54: a command with no register write may be repeated with the same result. -/
def Obligations.ReadingCommandsMayBeRepeated : Prop :=
  ∀ (s s1 s2 : State) (f : Family) (p : ByteString) (i : Instr),
    i ∈ [Instr.stat p, .ivGet p, .ecbEnc p, .ecbDec p, .skdDerive f p, .rotl1 p, .keyPrep f p] →
    exec i s = .next s1 → exec i s1 = .next s2 →
    ∃ st rest, s1.responses = s.responses ++ [st :: rest] ∧
      (st = 0 → s1.regs = s.regs ∧ s2.regs = s.regs ∧
        s2.responses = s1.responses ++ [st :: rest])

/-- 70_reset_and_hazards.md R308: the number of calls of `BCE` and `BCD` that each command makes, under any
parameters; those of CMAC.UPDATE in closed form; a command that ends in error makes none. The calls
counted are those of the machine's own text: a command's meaning is the run of its computation
`commandProg` under the model's parameters, and `cipherCalls` counts the calls of that computation. That
the model counts at all, untimed as it is, is log entry 15. -/
def Obligations.CipherCallCounts : Prop :=
  ∀ (c : Config.Params) (s : State) (p : ByteString) (n : Byte),
    (∀ i : Instr, execWith Config.params i s = exec i s ∧
      execWith c i s = (commandProg c.lrecvChain c.cmacDefaultN i s).run c) ∧
    (s.regs.keyv = true → p.length = s.regs.blockSize →
      cipherCalls c (.ecbEnc p) s = ⟨1, 0⟩ ∧ cipherCalls c (.ecbDec p) s = ⟨0, 1⟩) ∧
    (∀ k, s.regs.keyv = true → 1 ≤ k → p.length = k * s.regs.blockSize →
      (s.regs.fam = .tdes3 ∨ s.regs.fam = .aes → cipherCalls c (.cbcOut p) s = ⟨k, 0⟩) ∧
      (s.regs.fam = .des ∨ s.regs.fam = .tdes2 → cipherCalls c (.cbcOut p) s = ⟨0, k⟩) ∧
      cipherCalls c (.cbcIn p) s = ⟨0, k⟩) ∧
    (p.length = 16 → cipherCalls c (.cmacInit 3 p) s = ⟨1, 0⟩) ∧
    (s.regs.cinit = true →
      cipherCalls c (.cmacUpdate p) s = ⟨(s.regs.blen.val + p.length + 15) / 16 - 1, 0⟩) ∧
    (s.regs.cinit = true → n.toNat ≤ 16 → cipherCalls c (.cmacFinal n []) s = ⟨1, 0⟩) ∧
    (∀ i : Instr, opcode i ∉ ([0x12, 0x13, 0x24, 0x25, 0x30, 0x31, 0x32] : List Byte) →
      cipherCalls c i s = ⟨0, 0⟩) ∧
    (∀ (i : Instr) (e : CmdError), execWith c i s = .next (s.raise e) →
      cipherCalls c i s = ⟨0, 0⟩)

/-! ## System commands -/

/-- 44_system_commands.md R230. -/
def Obligations.ZeroizeEffect : Prop :=
  ∀ (s : State) (p : ByteString) (arg : Byte),
    (p = [] → ∃ r : Regs, Answers (exec (.zeroize p) s) s r [] ∧
      r.keyv = false ∧ familyCode r.fam = 0 ∧ r.key.data = List.replicate 24 0 ∧
      r.iv.data = List.replicate 16 0 ∧ r.cinit = false ∧ r.ck.data = List.replicate 16 0 ∧
      r.k1.data = List.replicate 16 0 ∧ r.k2.data = List.replicate 16 0 ∧
      r.x.data = List.replicate 16 0 ∧ r.buf.data = List.replicate 16 0 ∧ r.blen.val = 0 ∧
      r.lerr = s.regs.lerr) ∧
    (p ≠ [] → Errs (exec (.zeroize p) s) s 0x02) ∧
    (arg ≠ 0 → p.length ≤ 65535 → Errs (step (s.presenting (commandFrame 0x01 arg p))) s 0x05)

/-- 44_system_commands.md R231. -/
def Obligations.StatReport : Prop :=
  ∀ (s : State) (p : ByteString) (arg : Byte),
    (p = [] → Answers (exec (.stat p) s) s s.regs
      [BitVec.ofNat 8 ((if s.regs.keyv then 1 else 0) + (if s.regs.cinit then 2 else 0)),
        familyCode s.regs.fam, BitVec.ofNat 8 s.regs.blen.val, s.regs.lerr]) ∧
    (p ≠ [] → Errs (exec (.stat p) s) s 0x02) ∧
    (arg ≠ 0 → p.length ≤ 65535 → Errs (step (s.presenting (commandFrame 0x02 arg p))) s 0x05)

/-! ## Block Cipher Adapter -/

/-- 40_block_cipher_adapter.md R104. -/
def Obligations.KeyLoadEffect : Prop :=
  ∀ (s : State) (f : Family) (p : ByteString) (arg : Byte),
    (p.length = Config.kl f → ∃ k : Bytes 24, k.data = p ++ List.replicate (24 - Config.kl f) 0 ∧
      Answers (exec (.keyLoad f p) s) s
        { s.regs with fam := f, key := k, keyv := true, iv := Bytes.zero 16 } []) ∧
    (p.length ≠ Config.kl f → Errs (exec (.keyLoad f p) s) s 0x01) ∧
    (3 < arg.toNat → p.length ≤ 65535 → Errs (step (s.presenting (commandFrame 0x10 arg p))) s 0x05)

/-- 40_block_cipher_adapter.md R105. -/
def Obligations.KeyClearEffect : Prop :=
  ∀ (s : State) (p : ByteString) (arg : Byte),
    (p = [] → ∃ (k : Bytes 24) (v : Bytes 16) (f : Family),
      k.data = List.replicate 24 0 ∧ v.data = List.replicate 16 0 ∧ familyCode f = 0 ∧
      Answers (exec (.keyClear p) s) s { s.regs with keyv := false, fam := f, key := k, iv := v } []) ∧
    (p ≠ [] → Errs (exec (.keyClear p) s) s 0x02) ∧
    (arg ≠ 0 → p.length ≤ 65535 → Errs (step (s.presenting (commandFrame 0x11 arg p))) s 0x05)

/-- 40_block_cipher_adapter.md R106. -/
def Obligations.EcbEncEffect : Prop :=
  ∀ (s : State) (p : ByteString) (arg : Byte),
    (s.regs.keyv = true → p.length = Config.bs s.regs.fam →
      Answers (exec (.ecbEnc p) s) s s.regs
        (Config.bce s.regs.fam (s.regs.key.data.take (Config.kl s.regs.fam)) p)) ∧
    (s.regs.keyv = false → Errs (exec (.ecbEnc p) s) s 0x03) ∧
    (s.regs.keyv = true → p.length ≠ Config.bs s.regs.fam → Errs (exec (.ecbEnc p) s) s 0x02) ∧
    (arg ≠ 0 → p.length ≤ 65535 → Errs (step (s.presenting (commandFrame 0x12 arg p))) s 0x05)

/-- 40_block_cipher_adapter.md R107. -/
def Obligations.EcbDecEffect : Prop :=
  ∀ (s : State) (p : ByteString) (arg : Byte),
    (s.regs.keyv = true → p.length = Config.bs s.regs.fam →
      Answers (exec (.ecbDec p) s) s s.regs
        (Config.bcd s.regs.fam (s.regs.key.data.take (Config.kl s.regs.fam)) p)) ∧
    (s.regs.keyv = false → Errs (exec (.ecbDec p) s) s 0x03) ∧
    (s.regs.keyv = true → p.length ≠ Config.bs s.regs.fam → Errs (exec (.ecbDec p) s) s 0x02) ∧
    (arg ≠ 0 → p.length ≤ 65535 → Errs (step (s.presenting (commandFrame 0x13 arg p))) s 0x05)

/-- 40_block_cipher_adapter.md R108: ECB.DEC undoes ECB.ENC, and the other way round. -/
def Obligations.EcbRoundTrip : Prop :=
  ∀ (s : State) (b : ByteString), s.regs.keyv = true → b.length = Config.bs s.regs.fam →
    (∃ c s1, Answers (exec (.ecbEnc b) s) s s.regs c ∧ exec (.ecbEnc b) s = .next s1 ∧
      Answers (exec (.ecbDec c) s1) s1 s.regs b) ∧
    (∃ c s1, Answers (exec (.ecbDec b) s) s s.regs c ∧ exec (.ecbDec b) s = .next s1 ∧
      Answers (exec (.ecbEnc c) s1) s1 s.regs b)

/-! ## CBC Chaining Modes -/

/-- 41_cbc_modes.md R136. -/
def Obligations.IvZeroEffect : Prop :=
  ∀ (s : State) (p : ByteString) (arg : Byte),
    (p = [] → ∃ v : Bytes 16, v.data = List.replicate 16 0 ∧
      Answers (exec (.ivZero p) s) s { s.regs with iv := v } []) ∧
    (p ≠ [] → Errs (exec (.ivZero p) s) s 0x02) ∧
    (arg ≠ 0 → p.length ≤ 65535 → Errs (step (s.presenting (commandFrame 0x20 arg p))) s 0x05)

/-- 41_cbc_modes.md R137. -/
def Obligations.IvLoadEffect : Prop :=
  ∀ (s : State) (p : ByteString) (arg : Byte),
    (s.regs.keyv = true → p.length = Config.bs s.regs.fam →
      ∃ v : Bytes 16, v.data = p ++ List.replicate (16 - Config.bs s.regs.fam) 0 ∧
        Answers (exec (.ivLoad p) s) s { s.regs with iv := v } []) ∧
    (s.regs.keyv = false → Errs (exec (.ivLoad p) s) s 0x03) ∧
    (s.regs.keyv = true → p.length ≠ Config.bs s.regs.fam → Errs (exec (.ivLoad p) s) s 0x02) ∧
    (arg ≠ 0 → p.length ≤ 65535 → Errs (step (s.presenting (commandFrame 0x21 arg p))) s 0x05)

/-- 41_cbc_modes.md R138. -/
def Obligations.IvGetEffect : Prop :=
  ∀ (s : State) (p : ByteString) (arg : Byte),
    (s.regs.keyv = true → p = [] →
      Answers (exec (.ivGet p) s) s s.regs (s.regs.iv.data.take (Config.bs s.regs.fam))) ∧
    (s.regs.keyv = false → Errs (exec (.ivGet p) s) s 0x03) ∧
    (s.regs.keyv = true → p ≠ [] → Errs (exec (.ivGet p) s) s 0x02) ∧
    (arg ≠ 0 → p.length ≤ 65535 → Errs (step (s.presenting (commandFrame 0x22 arg p))) s 0x05)

/-- 41_cbc_modes.md R139 with R130, R131, R133 and R135: block `i` of the answer is the cipher applied to
payload block `i` XORed with the block before (the `IV` for the first), `BCE` in the standard discipline
and `BCD` in the legacy one; the last block of the answer becomes the `IV`. -/
def Obligations.CbcOutEffect : Prop :=
  ∀ (s : State) (p : ByteString) (n : Nat) (arg : Byte),
    (s.regs.keyv = true → 1 ≤ n → p.length = n * Config.bs s.regs.fam →
      ∃ (o : Nat → ByteString) (v : Bytes 16),
        (∀ i < n, o i =
          (if s.regs.fam = .tdes3 ∨ s.regs.fam = .aes then Config.bce else Config.bcd) s.regs.fam
            (s.regs.key.data.take (Config.kl s.regs.fam))
            (xorBytes ((p.drop (i * Config.bs s.regs.fam)).take (Config.bs s.regs.fam))
              (if i = 0 then s.regs.iv.data.take (Config.bs s.regs.fam) else o (i - 1)))) ∧
        v.data = o (n - 1) ++ List.replicate (16 - Config.bs s.regs.fam) 0 ∧
        Answers (exec (.cbcOut p) s) s { s.regs with iv := v } ((List.range n).map o).flatten) ∧
    (s.regs.keyv = false → Errs (exec (.cbcOut p) s) s 0x03) ∧
    (s.regs.keyv = true → (p.length = 0 ∨ p.length % Config.bs s.regs.fam ≠ 0) →
      Errs (exec (.cbcOut p) s) s 0x02) ∧
    (arg ≠ 0 → p.length ≤ 65535 → Errs (step (s.presenting (commandFrame 0x24 arg p))) s 0x05)

/-- 41_cbc_modes.md R140 with R130, R132, R134 and R135: block `i` of the answer is `BCD` of payload block
`i` XORed with the payload block before (the `IV` for the first); the last payload block becomes the
`IV`. The legacy half is the spec's value of `LRECV_CHAIN` (log entry 3). -/
def Obligations.CbcInEffect : Prop :=
  ∀ (s : State) (p : ByteString) (n : Nat) (arg : Byte),
    (s.regs.keyv = true → 1 ≤ n → p.length = n * Config.bs s.regs.fam →
      ∃ (b : Nat → ByteString) (v : Bytes 16),
        (∀ i < n, b i = (p.drop (i * Config.bs s.regs.fam)).take (Config.bs s.regs.fam)) ∧
        v.data = b (n - 1) ++ List.replicate (16 - Config.bs s.regs.fam) 0 ∧
        Answers (exec (.cbcIn p) s) s { s.regs with iv := v }
          ((List.range n).map fun i =>
            xorBytes
              (Config.bcd s.regs.fam (s.regs.key.data.take (Config.kl s.regs.fam)) (b i))
              (if i = 0 then s.regs.iv.data.take (Config.bs s.regs.fam) else b (i - 1))).flatten) ∧
    (s.regs.keyv = false → Errs (exec (.cbcIn p) s) s 0x03) ∧
    (s.regs.keyv = true → (p.length = 0 ∨ p.length % Config.bs s.regs.fam ≠ 0) →
      Errs (exec (.cbcIn p) s) s 0x02) ∧
    (arg ≠ 0 → p.length ≤ 65535 → Errs (step (s.presenting (commandFrame 0x25 arg p))) s 0x05)

/-- 41_cbc_modes.md R141 (a): in the standard discipline `IV.LOAD V; CBC.OUT P` returns `C`, and then
`IV.LOAD V; CBC.IN C` returns `P`. -/
def Obligations.StandardCbcRoundTrip : Prop :=
  ∀ (s : State) (v p : ByteString) (n : Nat), s.regs.keyv = true →
    (s.regs.fam = .tdes3 ∨ s.regs.fam = .aes) → v.length = Config.bs s.regs.fam → 1 ≤ n →
    p.length = n * Config.bs s.regs.fam →
    ∃ (c : ByteString) (s1 s2 s3 s4 : State),
      exec (.ivLoad v) s = .next s1 ∧
      exec (.cbcOut p) s1 = .next s2 ∧ s2.responses = s1.responses ++ [responseFrame 0 c] ∧
      exec (.ivLoad v) s2 = .next s3 ∧
      exec (.cbcIn c) s3 = .next s4 ∧ s4.responses = s3.responses ++ [responseFrame 0 p]

/-- 41_cbc_modes.md R133, R141 (b): in the legacy discipline `IV.LOAD V; CBC.OUT P` returns `C` with
`P_i = BCE(C_i) xor C_(i-1)`, the card-side inverse, and then `IV.LOAD V; CBC.IN C` returns `R` with
`R_i = BCD(BCD(P_i xor C_(i-1))) xor C_(i-1)`, where `C_0 = V`. It rests on `LRECV_CHAIN`, log entry 3. -/
def Obligations.LegacyPairComposition : Prop :=
  ∀ (s : State) (v p : ByteString) (n : Nat), s.regs.keyv = true →
    (s.regs.fam = .des ∨ s.regs.fam = .tdes2) → v.length = Config.bs s.regs.fam → 1 ≤ n →
    p.length = n * Config.bs s.regs.fam →
    ∃ (c : Nat → ByteString) (s1 s2 s3 s4 : State) (k : ByteString),
      c 0 = v ∧ k = s.regs.key.data.take (Config.kl s.regs.fam) ∧
      exec (.ivLoad v) s = .next s1 ∧ exec (.cbcOut p) s1 = .next s2 ∧
      s2.responses =
        s1.responses ++ [responseFrame 0 ((List.range n).map fun i => c (i + 1)).flatten] ∧
      (∀ i < n, (p.drop (i * Config.bs s.regs.fam)).take (Config.bs s.regs.fam) =
        xorBytes (Config.bce s.regs.fam k (c (i + 1))) (c i)) ∧
      exec (.ivLoad v) s2 = .next s3 ∧
      exec (.cbcIn ((List.range n).map fun i => c (i + 1)).flatten) s3 = .next s4 ∧
      s4.responses = s3.responses ++ [responseFrame 0 ((List.range n).map fun i =>
        xorBytes (Config.bcd s.regs.fam k (Config.bcd s.regs.fam k
          (xorBytes ((p.drop (i * Config.bs s.regs.fam)).take (Config.bs s.regs.fam)) (c i))))
          (c i)).flatten]

/-- 41_cbc_modes.md R141 (c): if a partner computes `C_i = BCE(P_i xor C_(i-1))` with `C_0 = V`, then
`IV.LOAD V; CBC.IN C` returns `P` in the legacy discipline. It rests on `LRECV_CHAIN`, log entry 3. -/
def Obligations.LegacyReceiveUndoesPartner : Prop :=
  ∀ (s : State) (v p : ByteString) (n : Nat) (c : Nat → ByteString), s.regs.keyv = true →
    (s.regs.fam = .des ∨ s.regs.fam = .tdes2) → v.length = Config.bs s.regs.fam → 1 ≤ n →
    p.length = n * Config.bs s.regs.fam → c 0 = v →
    (∀ i < n, c (i + 1) =
      Config.bce s.regs.fam (s.regs.key.data.take (Config.kl s.regs.fam))
        (xorBytes ((p.drop (i * Config.bs s.regs.fam)).take (Config.bs s.regs.fam)) (c i))) →
    ∃ s1 s2 : State, exec (.ivLoad v) s = .next s1 ∧
      exec (.cbcIn ((List.range n).map fun i => c (i + 1)).flatten) s1 = .next s2 ∧
      s2.responses = s1.responses ++ [responseFrame 0 p]

/-- 41_cbc_modes.md R142: one CBC command over `P || Q` returns the concatenation of what the commands over
`P` and then `Q` return, and leaves the same registers; in either direction. Incoming in the legacy
discipline it rests on `LRECV_CHAIN`, log entry 3. -/
def Obligations.CbcChainsAcrossCommands : Prop :=
  ∀ (s : State) (p q : ByteString) (i : ByteString → Instr), (i = .cbcOut ∨ i = .cbcIn) →
    s.regs.keyv = true → 0 < p.length → p.length % Config.bs s.regs.fam = 0 →
    0 < q.length → q.length % Config.bs s.regs.fam = 0 →
    ∃ (s1 : State) (r1 r2 : Regs) (d1 d2 : ByteString),
      Answers (exec (i p) s) s r1 d1 ∧ exec (i p) s = .next s1 ∧
      Answers (exec (i q) s1) s1 r2 d2 ∧
      Answers (exec (i (p ++ q)) s) s r2 (d1 ++ d2)

/-- 41_cbc_modes.md R143: for one block and a zero `IV` the two legacy directions return the same block
`BCD(P_1)`, and leave `O_1` and `P_1` as the `IV`. -/
def Obligations.LegacyDirectionsAgreeOnFirstBlock : Prop :=
  ∀ (s : State) (p : ByteString), s.regs.keyv = true →
    (s.regs.fam = .des ∨ s.regs.fam = .tdes2) → p.length = 8 → s.regs.iv = Bytes.zero 16 →
    ∃ (o : ByteString) (v w : Bytes 16),
      o = Config.bcd s.regs.fam (s.regs.key.data.take (Config.kl s.regs.fam)) p ∧
      v.data = o ++ List.replicate 8 0 ∧ w.data = p ++ List.replicate 8 0 ∧
      Answers (exec (.cbcOut p) s) s { s.regs with iv := v } o ∧
      Answers (exec (.cbcIn p) s) s { s.regs with iv := w } o

/-- 41_cbc_modes.md R134, R135: under either value of `LRECV_CHAIN` CBC.IN returns the same first block and
carries the same `IV`; a payload of one block, or a standard family, cannot tell them apart. That both
readings leave the same `IV` is the model's choice, log entry 13: R135 is followed against the words of
vector L4. -/
def Obligations.LrecvChainReadingsAgree : Prop :=
  ∀ (c : Config.Params) (s : State) (p : ByteString), s.regs.keyv = true → 0 < p.length →
    p.length % Config.bs s.regs.fam = 0 →
    ∃ (r : Regs) (d e : ByteString),
      Answers (cbcInWith { c with lrecvChain := .prevCiphered } p s) s r d ∧
      Answers (cbcInWith { c with lrecvChain := .prevPlain } p s) s r e ∧
      (∃ a b b', d = a ++ b ∧ e = a ++ b' ∧
        a = xorBytes
          (c.dec s.regs.fam (s.regs.key.data.take (Config.kl s.regs.fam))
            (p.take (Config.bs s.regs.fam)))
          (s.regs.iv.data.take (Config.bs s.regs.fam))) ∧
      (p.length = Config.bs s.regs.fam ∨ s.regs.fam = .tdes3 ∨ s.regs.fam = .aes → d = e)

/-! ## CMAC Engine -/

/-- 42_cmac_engine.md R171: the doubling shifts left by one bit with byte 0 most significant, examines the
top bit first, and XORs 0x87 into the last byte only if it was set; on numbers it is `2 v mod 2^128`,
XORed with 0x87 when `v >= 2^127`. -/
def Obligations.DoublingShiftsAndReduces : Prop :=
  ∀ x : Bytes 16,
    (∀ i < 15, (dbl x).data.getD i 0 =
      (x.data.getD i 0 <<< 1) ||| (x.data.getD (i + 1) 0 >>> 7)) ∧
    (dbl x).data.getD 15 0 =
      (x.data.getD 15 0 <<< 1) ^^^ (if x.data.getD 0 0 >>> 7 = 1 then 0x87 else 0) ∧
    beNumber (dbl x).data =
      (2 * beNumber x.data) % 2 ^ 128 ^^^ (if 2 ^ 127 ≤ beNumber x.data then 0x87 else 0)

/-- 42_cmac_engine.md R173: the doubling is a bijection on 16-byte strings and sends zero to zero; it is
not idempotent. -/
def Obligations.DoublingIsBijective : Prop :=
  Function.Bijective dbl ∧ dbl (Bytes.zero 16) = Bytes.zero 16 ∧ ∃ x, dbl (dbl x) ≠ dbl x

/-- 42_cmac_engine.md R172. -/
def Obligations.CmacInitEffect : Prop :=
  ∀ (s : State) (t : Byte) (p : ByteString),
    (t = 0x03 → p.length = 16 → ∃ ck k0 z : Bytes 16,
      ck.data = p ∧ k0.data = Config.bce .aes p (List.replicate 16 0) ∧
      z.data = List.replicate 16 0 ∧
      Answers (exec (.cmacInit t p) s) s
        { s.regs with
          ck := ck, k1 := dbl k0, k2 := dbl (dbl k0), x := z, buf := z, blen := 0, cinit := true }
        []) ∧
    (t ≠ 0x03 ∨ p.length ≠ 16 → Errs (exec (.cmacInit t p) s) s 0x01)

/-- 42_cmac_engine.md R174: no byte changes nothing; one byte is stored behind the held ones, after a full
held block, if there is one, has been chained into `X`; and a payload `P || Q` does what `P` and then
`Q` do. -/
def Obligations.CmacUpdateEffect : Prop :=
  ∀ (s : State) (p q : ByteString) (b arg : Byte),
    (s.regs.cinit = true →
      Answers (exec (.cmacUpdate []) s) s s.regs [] ∧
      (∀ n : Fin 17, n.val = s.regs.blen.val + 1 → ∃ buf : Bytes 16,
        buf.data = s.regs.buf.data.set s.regs.blen.val b ∧
        Answers (exec (.cmacUpdate [b]) s) s { s.regs with buf := buf, blen := n } []) ∧
      (s.regs.blen.val = 16 → ∃ x buf : Bytes 16,
        x.data = Config.bce .aes s.regs.ck.data (xorBytes s.regs.x.data s.regs.buf.data) ∧
        buf.data = b :: List.replicate 15 0 ∧
        Answers (exec (.cmacUpdate [b]) s) s { s.regs with x := x, buf := buf, blen := 1 } []) ∧
      ∃ (s1 : State) (r1 r2 : Regs),
        Answers (exec (.cmacUpdate p) s) s r1 [] ∧ exec (.cmacUpdate p) s = .next s1 ∧
        Answers (exec (.cmacUpdate q) s1) s1 r2 [] ∧
        Answers (exec (.cmacUpdate (p ++ q)) s) s r2 []) ∧
    (s.regs.cinit = false → Errs (exec (.cmacUpdate p) s) s 0x04) ∧
    (arg ≠ 0 → p.length ≤ 65535 → Errs (step (s.presenting (commandFrame 0x31 arg p))) s 0x05)

/-- 10_state.md R34: after CMAC.INIT with key `CK` and then CMAC.UPDATE commands whose payloads concatenate
to `M`, the CMAC state is a function of `CK` and `M` alone: `X` is the CBC-MAC of the full blocks before
the last one, and `BUF`, `BLEN` hold the last block. No other register has changed. -/
def Obligations.MessageStateClosedForm : Prop :=
  ∀ (s : State) (key : ByteString) (ps : List ByteString), key.length = 16 →
    ∃ (s1 : State) (c : Nat → ByteString) (ck k0 x buf : Bytes 16) (n : Fin 17),
      execAll (.cmacInit 3 key :: ps.map .cmacUpdate) s = .next s1 ∧
      ck.data = key ∧ k0.data = Config.bce .aes key (List.replicate 16 0) ∧
      c 0 = List.replicate 16 0 ∧
      (∀ i < (ps.flatten.length - 1) / 16, c (i + 1) =
        Config.bce .aes key (xorBytes ((ps.flatten.drop (16 * i)).take 16) (c i))) ∧
      x.data = c ((ps.flatten.length - 1) / 16) ∧
      n.val = ps.flatten.length - 16 * ((ps.flatten.length - 1) / 16) ∧
      buf.data = ps.flatten.drop (16 * ((ps.flatten.length - 1) / 16)) ++
        List.replicate (16 - n.val) 0 ∧
      s1.regs = { s.regs with
        cinit := true, ck := ck, k1 := dbl k0, k2 := dbl (dbl k0), x := x, buf := buf, blen := n }

/-- 42_cmac_engine.md R175, R176. For `n = 0` the 16 bytes are the spec's `CMAC_DEFAULT_N` (log entry 2). -/
def Obligations.CmacFinalEffect : Prop :=
  ∀ (s : State) (n : Byte) (p : ByteString),
    (n.toNat ≤ 16 → s.regs.cinit = true → p = [] → ∃ (l : ByteString) (z : Bytes 16),
      (s.regs.blen.val = 16 → l = xorBytes s.regs.buf.data s.regs.k1.data) ∧
      (s.regs.blen.val ≠ 16 → l = xorBytes
        (s.regs.buf.data.take s.regs.blen.val ++ [0x80] ++ List.replicate (15 - s.regs.blen.val) 0)
        s.regs.k2.data) ∧
      z.data = List.replicate 16 0 ∧
      Answers (exec (.cmacFinal n p) s) s { s.regs with x := z, buf := z, blen := 0 }
        ((Config.bce .aes s.regs.ck.data (xorBytes s.regs.x.data l)).take
          (if n = 0 then 16 else n.toNat))) ∧
    (16 < n.toNat → Errs (exec (.cmacFinal n p) s) s 0x05) ∧
    (n.toNat ≤ 16 → s.regs.cinit = false → Errs (exec (.cmacFinal n p) s) s 0x04) ∧
    (n.toNat ≤ 16 → s.regs.cinit = true → p ≠ [] → Errs (exec (.cmacFinal n p) s) s 0x02) ∧
    (16 < n.toNat → p.length ≤ 65535 → Errs (step (s.presenting (commandFrame 0x32 n p))) s 0x05)

/-- 42_cmac_engine.md R178, R179: after CMAC.INIT with key `CK`, CMAC.UPDATE commands that feed a message
`M` in any division into payloads, and CMAC.FINAL asking for `n` bytes, the answer is the first `n`
bytes of the closed form, which mentions neither the history nor the payload boundaries. For `n = 0`
it rests on log entry 2. -/
def Obligations.MacIsClosedFormOfMessage : Prop :=
  ∀ (s : State) (key : ByteString) (ps : List ByteString) (n : Byte), key.length = 16 →
    n.toNat ≤ 16 →
    ∃ (s1 : State) (r : Regs) (k0 : Bytes 16) (c : Nat → ByteString) (last l : ByteString),
      execAll (.cmacInit 3 key :: ps.map .cmacUpdate) s = .next s1 ∧
      k0.data = Config.bce .aes key (List.replicate 16 0) ∧
      c 0 = List.replicate 16 0 ∧
      (∀ i < (ps.flatten.length - 1) / 16, c (i + 1) =
        Config.bce .aes key (xorBytes (c i) ((ps.flatten.drop (16 * i)).take 16))) ∧
      last = ps.flatten.drop (16 * ((ps.flatten.length - 1) / 16)) ∧
      (last.length = 16 → l = xorBytes last (dbl k0).data) ∧
      (last.length ≠ 16 → l = xorBytes (last ++ [0x80] ++ List.replicate (15 - last.length) 0)
        (dbl (dbl k0)).data) ∧
      Answers (exec (.cmacFinal n []) s1) s1 r
        ((Config.bce .aes key (xorBytes (c ((ps.flatten.length - 1) / 16)) l)).take
          (if n = 0 then 16 else n.toNat))

/-- 42_cmac_engine.md R179: after CMAC.FINAL the engine stands as if CMAC.INIT had been issued again with the
same key, so the next MAC is the same. -/
def Obligations.FinalRearmsLikeInit : Prop :=
  ∀ (s s1 s2 : State) (n : Byte), s.Inv → s.regs.cinit = true → n.toNat ≤ 16 →
    exec (.cmacFinal n []) s = .next s1 → exec (.cmacInit 3 s.regs.ck.data) s = .next s2 →
    s1.regs = s2.regs

/-! ## Session keys and byte utilities -/

/-- 43_session_key_and_bytes.md R211, R212: byte `j` of the session key is the byte of RndA or RndB that the
table of output positions names. -/
def Obligations.SkdDeriveEffect : Prop :=
  ∀ (s : State) (f : Family) (p : ByteString) (arg : Byte),
    (p.length = 2 * Config.nl f → ∃ (a b k : ByteString) (starts : List Nat),
      p = a ++ b ∧ a.length = Config.nl f ∧ b.length = Config.nl f ∧
      Answers (exec (.skdDerive f p) s) s s.regs k ∧ k.length = Config.skl f ∧
      starts = (match f with
        | .des => [0]
        | .tdes2 => [0, 4]
        | .tdes3 => [0, 6, 12]
        | .aes => [0, 12]) ∧
      k.length = 8 * starts.length ∧
      ∀ g < starts.length, ∀ j < 4,
        k[8 * g + j]? = a[starts.getD g 0 + j]? ∧ k[8 * g + 4 + j]? = b[starts.getD g 0 + j]?) ∧
    (p.length ≠ 2 * Config.nl f → Errs (exec (.skdDerive f p) s) s 0x02) ∧
    (3 < arg.toNat → p.length ≤ 65535 → Errs (step (s.presenting (commandFrame 0x40 arg p))) s 0x05)

/-- 43_session_key_and_bytes.md R213: `R[i] = P[(i+1) mod n]`, and `n` rotations give `P` back. -/
def Obligations.RotateLeftEffect : Prop :=
  ∀ (s : State) (p : ByteString) (arg : Byte),
    (p ≠ [] → Answers (exec (.rotl1 p) s) s s.regs (rotateLeftOne p) ∧
      (rotateLeftOne p).length = p.length ∧
      (∀ i < p.length, (rotateLeftOne p)[i]? = p[(i + 1) % p.length]?) ∧
      rotateLeftOne^[p.length] p = p) ∧
    (p = [] → Errs (exec (.rotl1 p) s) s 0x02) ∧
    (arg ≠ 0 → p.length ≤ 65535 → Errs (step (s.presenting (commandFrame 0x41 arg p))) s 0x05)

/-- 43_session_key_and_bytes.md R214: the least significant bit of every byte of a DES-family key is cleared,
an AES key is returned unchanged, and the command is idempotent on its output. -/
def Obligations.KeyPrepEffect : Prop :=
  ∀ (s : State) (f : Family) (p : ByteString) (arg : Byte),
    (p.length = Config.kl f → ∃ r : ByteString, Answers (exec (.keyPrep f p) s) s s.regs r ∧
      Answers (exec (.keyPrep f r) s) s s.regs r ∧ r.length = p.length ∧
      (f = .aes → r = p) ∧
      (f ≠ .aes → ∀ i < p.length, r.getD i 0 = p.getD i 0 &&& 0xFE)) ∧
    (p.length ≠ Config.kl f → Errs (exec (.keyPrep f p) s) s 0x01) ∧
    (3 < arg.toNat → p.length ≤ 65535 → Errs (step (s.presenting (commandFrame 0x42 arg p))) s 0x05)

/-! ## Cipher calls -/

/-- 00_scope.md R10, 40_block_cipher_adapter.md R109: a command depends on the cipher only through the calls
it makes. Two ciphers that answer alike on the calls of a command give it the same outcome and the same
calls, whatever else they do. -/
def Obligations.OutcomeDependsOnlyOnCallsMade : Prop :=
  ∀ (c c' : Config.Params) (i : Instr) (s : State),
    c'.lrecvChain = c.lrecvChain → c'.cmacDefaultN = c.cmacDefaultN →
    (∀ q ∈ callTrace c i s, answerCall c' q = answerCall c q) →
    execWith c' i s = execWith c i s ∧ callTrace c' i s = callTrace c i s

/-- 40_block_cipher_adapter.md R102, R109: with a cipher that answers with blocks, as `BCE` and `BCD` do, every
call has a key and a block of its family's lengths; an adapter or CBC command calls under `FAM` and
`KEY[0:kl(FAM)]`, a CMAC command calls `BCE(AES, CK, ·)` only, CMAC.INIT with the key it installs; and a
command of no cipher unit makes no call. -/
def Obligations.CallsAreWellSizedAndOfTheirUnit : Prop :=
  ∀ (c : Config.Params) (i : Instr) (s : State) (q : CipherCall),
    (∀ f k b, (c.enc f k b).length = Config.bs f ∧ (c.dec f k b).length = Config.bs f) →
    q ∈ callTrace c i s →
    q.key.length = Config.kl q.fam ∧ q.block.length = Config.bs q.fam ∧
    (isAdapterCommand i = true →
      q.fam = s.regs.fam ∧ q.key = s.regs.key.data.take (Config.kl s.regs.fam)) ∧
    (isCmacCommand i = true → q.dir = .enc ∧ q.fam = .aes ∧
      ((∃ t, i = .cmacInit t q.key) ∨ (opcode i ≠ 0x30 ∧ q.key = s.regs.ck.data))) ∧
    (isAdapterCommand i = true ∨ isCmacCommand i = true)

/-- 40_block_cipher_adapter.md R106, R107, 41_cbc_modes.md R139, R140, 42_cmac_engine.md R172, R174, R176: the
calls of a command that ends with OK are used. An ECB command answers the answer to its one call; CBC.OUT
the answers to its calls; CBC.IN calls with its payload blocks and answers the answers XORed with the
block before; CMAC.INIT makes its subkeys, CMAC.FINAL its MAC from the one answer; and `X` after
CMAC.UPDATE is the last answer, or what it was if there was no call. -/
def Obligations.CallAnswersMakeTheResult : Prop :=
  ∀ (c : Config.Params) (s : State) (p : ByteString) (n : Byte),
    (s.regs.keyv = true → p.length = Config.bs s.regs.fam → ∃ q q' : CipherCall,
      q = ⟨.enc, s.regs.fam, s.regs.key.data.take (Config.kl s.regs.fam), p⟩ ∧
      q' = ⟨.dec, s.regs.fam, s.regs.key.data.take (Config.kl s.regs.fam), p⟩ ∧
      callTrace c (.ecbEnc p) s = [q] ∧ callTrace c (.ecbDec p) s = [q'] ∧
      Answers (execWith c (.ecbEnc p) s) s s.regs (answerCall c q) ∧
      Answers (execWith c (.ecbDec p) s) s s.regs (answerCall c q')) ∧
    (s.regs.keyv = true → 0 < p.length → p.length % Config.bs s.regs.fam = 0 →
      (∃ v, Answers (execWith c (.cbcOut p) s) s { s.regs with iv := v }
        ((callTrace c (.cbcOut p) s).map (answerCall c)).flatten) ∧
      ((callTrace c (.cbcIn p) s).map (·.block)).flatten = p ∧
      (c.lrecvChain = .prevCiphered ∨ s.regs.fam = .tdes3 ∨ s.regs.fam = .aes →
        ∃ v, Answers (execWith c (.cbcIn p) s) s { s.regs with iv := v }
          (List.zipWith xorBytes ((callTrace c (.cbcIn p) s).map (answerCall c))
            (s.regs.iv.data.take (Config.bs s.regs.fam) ::
              (callTrace c (.cbcIn p) s).map (·.block))).flatten)) ∧
    (p.length = 16 → ∃ (r : Regs) (q : CipherCall), q = ⟨.enc, .aes, p, List.replicate 16 0⟩ ∧
      callTrace c (.cmacInit 3 p) s = [q] ∧ Answers (execWith c (.cmacInit 3 p) s) s r [] ∧
      r.k1 = dbl (Bytes.ofList 16 (answerCall c q)) ∧ r.k2 = dbl r.k1) ∧
    (s.regs.cinit = true → ∃ r : Regs, Answers (execWith c (.cmacUpdate p) s) s r [] ∧
      r.x = match (callTrace c (.cmacUpdate p) s).getLast? with
        | none => s.regs.x
        | some q => Bytes.ofList 16 (answerCall c q)) ∧
    (s.regs.cinit = true → n.toNat ≤ 16 → ∃ (r : Regs) (q : CipherCall),
      callTrace c (.cmacFinal n []) s = [q] ∧
      Answers (execWith c (.cmacFinal n []) s) s r
        ((answerCall c q).take (if n = 0 then c.cmacDefaultN else n.toNat)))
end

