-- ==== Sys2Proof/Laws/CipherProg.lean ====
section
/-! SUPPORT. Laws of computations with cipher calls: running one, listing its calls, and that its value
depends on the cipher only through the calls it makes. -/

namespace Sys2Proof.Machine

namespace CipherProg

variable {α β : Type} (c : Config.Params)

@[simp] theorem run_done (a : α) : (done a).run c = a := rfl
@[simp] theorem run_call (q : CipherCall) (k : ByteString → CipherProg α) :
    (call q k).run c = (k (answerCall c q)).run c := rfl
@[simp] theorem trace_done (a : α) : (done a).trace c = [] := rfl
@[simp] theorem trace_call (q : CipherCall) (k : ByteString → CipherProg α) :
    (call q k).trace c = q :: (k (answerCall c q)).trace c := rfl

/-- The second computation runs on the value of the first. -/
@[simp] theorem run_bind (x : CipherProg α) (k : α → CipherProg β) :
    (x.bind k).run c = (k (x.run c)).run c := by
  induction x with
  | done a => rfl
  | call q next ih => exact ih _

/-- The calls of the second computation follow those of the first. -/
@[simp] theorem trace_bind (x : CipherProg α) (k : α → CipherProg β) :
    (x.bind k).trace c = x.trace c ++ (k (x.run c)).trace c := by
  induction x with
  | done a => rfl
  | call q next ih => exact congrArg (q :: ·) (ih _)

@[simp] theorem run_map (g : α → β) (x : CipherProg α) : (x.map g).run c = g (x.run c) :=
  run_bind c x _
@[simp] theorem trace_map (g : α → β) (x : CipherProg α) : (x.map g).trace c = x.trace c := by
  rw [map, trace_bind]; exact List.append_nil _

@[simp] theorem run_ite (p : Prop) [Decidable p] (x y : CipherProg α) :
    (if p then x else y).run c = if p then x.run c else y.run c := apply_ite _ _ _ _
@[simp] theorem trace_ite (p : Prop) [Decidable p] (x y : CipherProg α) :
    (if p then x else y).trace c = if p then x.trace c else y.trace c := apply_ite _ _ _ _

/-- Two ciphers that answer alike on the calls of a computation give it the same value and calls. -/
theorem agree {c c' : Config.Params} (x : CipherProg α)
    (h : ∀ q ∈ x.trace c, answerCall c' q = answerCall c q) :
    x.run c' = x.run c ∧ x.trace c' = x.trace c := by
  induction x with
  | done a => exact ⟨rfl, rfl⟩
  | call q next ih =>
    simp only [trace_call, List.mem_cons, forall_eq_or_imp] at h
    obtain ⟨hr, ht⟩ := ih _ h.2
    exact ⟨by simp [h.1, hr], by simp [h.1, ht]⟩

end CipherProg

section
variable (c : Config.Params) (f : Family) (K B : ByteString)
@[simp] theorem answerCall_enc : answerCall c ⟨.enc, f, K, B⟩ = c.enc f K B := rfl
@[simp] theorem answerCall_dec : answerCall c ⟨.dec, f, K, B⟩ = c.dec f K B := rfl
@[simp] theorem callEnc_run : (callEnc f K B).run c = c.enc f K B := rfl
@[simp] theorem callEnc_trace : (callEnc f K B).trace c = [⟨.enc, f, K, B⟩] := rfl
@[simp] theorem callDec_run : (callDec f K B).run c = c.dec f K B := rfl
@[simp] theorem callDec_trace : (callDec f K B).trace c = [⟨.dec, f, K, B⟩] := rfl
end

section
variable (c : Config.Params) (r : Regs) (ck : Bytes 16) (b : ByteString)
@[simp] theorem encryptBlock_run : (encryptBlock r b).run c = c.enc r.fam r.loadedKey b := rfl
@[simp] theorem encryptBlock_trace :
    (encryptBlock r b).trace c = [⟨.enc, r.fam, r.loadedKey, b⟩] := rfl
@[simp] theorem decryptBlock_run : (decryptBlock r b).run c = c.dec r.fam r.loadedKey b := rfl
@[simp] theorem decryptBlock_trace :
    (decryptBlock r b).trace c = [⟨.dec, r.fam, r.loadedKey, b⟩] := rfl
@[simp] theorem cmacEncrypt_run : (cmacEncrypt ck b).run c = c.enc .aes ck.data b := rfl
@[simp] theorem cmacEncrypt_trace : (cmacEncrypt ck b).trace c = [⟨.enc, .aes, ck.data, b⟩] := rfl
@[simp] theorem macOf_run :
    (macOf r).run c = c.enc .aes r.ck.data (xorBytes r.x.data (lastBlock r)) := rfl
@[simp] theorem macOf_trace :
    (macOf r).trace c = [⟨.enc, .aes, r.ck.data, xorBytes r.x.data (lastBlock r)⟩] := rfl
end

end Sys2Proof.Machine
end

