-- ==== Sys2Proof/Laws/Word.lean ====
section
/-! SUPPORT. Small lemmas of byte registers. -/

namespace Sys2Proof

@[simp] theorem zeros_length (n : Nat) : (zeros n).length = n := by simp [zeros]

@[simp] theorem Bytes.length_data {n : Nat} (r : Bytes n) : r.data.length = n := r.len

theorem Bytes.eq_of_data {n : Nat} {a b : Bytes n} (h : a.data = b.data) : a = b := by
  cases a; cases b; simp_all

@[simp] theorem Bytes.zero_data (n : Nat) : (Bytes.zero n).data = zeros n := rfl

@[simp] theorem Bytes.set_data {n : Nat} (r : Bytes n) (i : Nat) (b : Byte) :
    (r.set i b).data = r.data.set i b := rfl

/-- A string that fits is stored whole, with zero bytes behind it. -/
theorem Bytes.ofList_data {n : Nat} {l : ByteString} (h : l.length ≤ n) :
    (Bytes.ofList n l).data = l ++ zeros (n - l.length) := by
  simp only [Bytes.ofList]
  apply List.take_of_length_le
  simp; omega

/-- A string of exactly the register's length is stored as it is. -/
theorem Bytes.ofList_data_of_length {n : Nat} {l : ByteString} (h : l.length = n) :
    (Bytes.ofList n l).data = l := by
  rw [Bytes.ofList_data h.le]; simp [h, zeros]

@[simp] theorem Bytes.ofList_self {n : Nat} (r : Bytes n) : Bytes.ofList n r.data = r :=
  Bytes.eq_of_data (Bytes.ofList_data_of_length r.len)

@[simp] theorem Bytes.ofList_nil (n : Nat) : Bytes.ofList n [] = Bytes.zero n :=
  Bytes.eq_of_data (by simp [Bytes.ofList_data])

/-- A byte behind a stored string is zero. -/
theorem Bytes.ofList_getElem?_ge {n i : Nat} {l : ByteString} (h : l.length ≤ i) (hi : i < n) :
    (Bytes.ofList n l).data[i]? = some 0 := by
  rw [Bytes.ofList_data (by omega), List.getElem?_append_right h]
  simp only [zeros, List.getElem?_replicate]
  rw [if_pos (by omega)]

theorem zeros_getElem? {n i : Nat} (hi : i < n) : (zeros n)[i]? = some (0 : Byte) := by
  simp [zeros, hi]

end Sys2Proof
end

