-- ==== Sys2Proof/Laws/State.lean ====
section
/-! SUPPORT. One lemma per field per update of the state, and how a command ends. -/

namespace Sys2Proof.Machine

/-! ## Ending a command -/

@[simp] theorem State.raise_regs (s : State) (e : CmdError) :
    (s.raise e).regs = { s.regs with lerr := errorCode e } := rfl
@[simp] theorem State.raise_pending (s : State) (e : CmdError) :
    (s.raise e).pending = s.pending := rfl
@[simp] theorem State.raise_responses (s : State) (e : CmdError) :
    (s.raise e).responses = s.responses ++ [responseFrame (errorCode e) []] := rfl

@[simp] theorem State.reply_regs (s : State) (r : Regs) (d : ByteString) :
    (s.reply r d).regs = r := rfl
@[simp] theorem State.reply_pending (s : State) (r : Regs) (d : ByteString) :
    (s.reply r d).pending = s.pending := rfl
@[simp] theorem State.reply_responses (s : State) (r : Regs) (d : ByteString) :
    (s.reply r d).responses = s.responses ++ [responseFrame 0 d] := rfl

@[simp] theorem State.hostReset_regs (s : State) : s.hostReset.regs = Regs.reset := rfl
@[simp] theorem State.hostReset_pending (s : State) : s.hostReset.pending = s.pending := rfl
@[simp] theorem State.hostReset_responses (s : State) : s.hostReset.responses = s.responses := rfl

@[simp] theorem State.finish_error (s : State) (e : CmdError) :
    s.finish (.error e) = .next (s.raise e) := rfl
@[simp] theorem State.finish_ok (s : State) (r : Regs) (d : ByteString) :
    s.finish (.ok (r, d)) = .next (s.reply r d) := rfl

/-- Everything the end of a command can do: it always gives a next state, either an error, which
writes `LERR` only, or an answer. -/
theorem State.finish_cases {s s' : State} {res : Result} (h : s.finish res = .next s') :
    (∃ e, res = .error e ∧ s' = s.raise e) ∨ (∃ r d, res = .ok (r, d) ∧ s' = s.reply r d) := by
  cases res with
  | error e => exact .inl ⟨e, rfl, by simpa using h.symm⟩
  | ok rd => exact .inr ⟨rd.1, rd.2, rfl, by simpa [State.finish] using h.symm⟩

theorem answers_reply (s : State) (r : Regs) (d : ByteString) :
    Answers (.next (s.reply r d)) s r d := rfl
theorem errs_raise (s : State) (e : CmdError) : Errs (.next (s.raise e)) s (errorCode e) := rfl

/-- An answer is never an error: the status tells them apart. -/
theorem State.reply_ne_raise (s : State) (r : Regs) (d : ByteString) (e : CmdError) :
    s.reply r d ≠ s.raise e := by
  intro h
  have := congrArg State.responses h
  cases e <;> simp [responseFrame, errorCode] at this

/-! ## Updates of the registers -/

@[simp] theorem Regs.restartMessage_keyv (r : Regs) : r.restartMessage.keyv = r.keyv := rfl
@[simp] theorem Regs.restartMessage_fam (r : Regs) : r.restartMessage.fam = r.fam := rfl
@[simp] theorem Regs.restartMessage_key (r : Regs) : r.restartMessage.key = r.key := rfl
@[simp] theorem Regs.restartMessage_iv (r : Regs) : r.restartMessage.iv = r.iv := rfl
@[simp] theorem Regs.restartMessage_cinit (r : Regs) : r.restartMessage.cinit = r.cinit := rfl
@[simp] theorem Regs.restartMessage_ck (r : Regs) : r.restartMessage.ck = r.ck := rfl
@[simp] theorem Regs.restartMessage_k1 (r : Regs) : r.restartMessage.k1 = r.k1 := rfl
@[simp] theorem Regs.restartMessage_k2 (r : Regs) : r.restartMessage.k2 = r.k2 := rfl
@[simp] theorem Regs.restartMessage_x (r : Regs) : r.restartMessage.x = Bytes.zero 16 := rfl
@[simp] theorem Regs.restartMessage_buf (r : Regs) : r.restartMessage.buf = Bytes.zero 16 := rfl
@[simp] theorem Regs.restartMessage_blen (r : Regs) : r.restartMessage.blen = 0 := rfl
@[simp] theorem Regs.restartMessage_lerr (r : Regs) : r.restartMessage.lerr = r.lerr := rfl

section
variable (c : Config.Params) (r : Regs) (ck : Bytes 16)
@[simp] theorem Regs.installCmacKey_keyv : ((r.installCmacKey ck).run c).keyv = r.keyv := rfl
@[simp] theorem Regs.installCmacKey_fam : ((r.installCmacKey ck).run c).fam = r.fam := rfl
@[simp] theorem Regs.installCmacKey_key : ((r.installCmacKey ck).run c).key = r.key := rfl
@[simp] theorem Regs.installCmacKey_iv : ((r.installCmacKey ck).run c).iv = r.iv := rfl
@[simp] theorem Regs.installCmacKey_cinit : ((r.installCmacKey ck).run c).cinit = true := rfl
@[simp] theorem Regs.installCmacKey_ck : ((r.installCmacKey ck).run c).ck = ck := rfl
@[simp] theorem Regs.installCmacKey_k1 : ((r.installCmacKey ck).run c).k1 = subkey1 c ck := rfl
@[simp] theorem Regs.installCmacKey_k2 : ((r.installCmacKey ck).run c).k2 = subkey2 c ck := rfl
@[simp] theorem Regs.installCmacKey_x : ((r.installCmacKey ck).run c).x = Bytes.zero 16 := rfl
@[simp] theorem Regs.installCmacKey_buf : ((r.installCmacKey ck).run c).buf = Bytes.zero 16 := rfl
@[simp] theorem Regs.installCmacKey_blen : ((r.installCmacKey ck).run c).blen = 0 := rfl
@[simp] theorem Regs.installCmacKey_lerr : ((r.installCmacKey ck).run c).lerr = r.lerr := rfl
@[simp] theorem Regs.installCmacKey_trace :
    (r.installCmacKey ck).trace c = [⟨.enc, .aes, ck.data, zeros 16⟩] := rfl
end

section
variable (r : Regs) (b : Byte)
@[simp] theorem Regs.holdByte_keyv : (r.holdByte b).keyv = r.keyv := rfl
@[simp] theorem Regs.holdByte_fam : (r.holdByte b).fam = r.fam := rfl
@[simp] theorem Regs.holdByte_key : (r.holdByte b).key = r.key := rfl
@[simp] theorem Regs.holdByte_iv : (r.holdByte b).iv = r.iv := rfl
@[simp] theorem Regs.holdByte_cinit : (r.holdByte b).cinit = r.cinit := rfl
@[simp] theorem Regs.holdByte_ck : (r.holdByte b).ck = r.ck := rfl
@[simp] theorem Regs.holdByte_k1 : (r.holdByte b).k1 = r.k1 := rfl
@[simp] theorem Regs.holdByte_k2 : (r.holdByte b).k2 = r.k2 := rfl
@[simp] theorem Regs.holdByte_x : (r.holdByte b).x = r.x := rfl
@[simp] theorem Regs.holdByte_buf : (r.holdByte b).buf = r.buf.set r.blen.val b := rfl
@[simp] theorem Regs.holdByte_blen : (r.holdByte b).blen = r.blen + 1 := rfl
@[simp] theorem Regs.holdByte_lerr : (r.holdByte b).lerr = r.lerr := rfl
end

/-- One byte more goes in first; the rest of the payload follows. -/
theorem absorb_cons_run (c : Config.Params) (r : Regs) (b : Byte) (p : ByteString) :
    (absorb r (b :: p)).run c = (absorb ((absorbByte r b).run c) p).run c := CipherProg.run_bind _ _ _

theorem absorb_cons_trace (c : Config.Params) (r : Regs) (b : Byte) (p : ByteString) :
    (absorb r (b :: p)).trace c =
      (absorbByte r b).trace c ++ (absorb ((absorbByte r b).run c) p).trace c :=
  CipherProg.trace_bind _ _ _

@[simp] theorem absorb_nil (r : Regs) : absorb r [] = .done r := rfl

/-- Only `X`, `BUF` and `BLEN` change when a full block is chained in. -/
theorem Regs.flushFull_eq (c : Config.Params) (r : Regs) :
    r.flushFull.run c =
      { r with
        x := (r.flushFull.run c).x, buf := (r.flushFull.run c).buf
        blen := (r.flushFull.run c).blen } := by
  unfold Regs.flushFull; split <;> rfl

/-- Only `X`, `BUF` and `BLEN` change while a message is fed. -/
theorem absorb_eq (c : Config.Params) (p : ByteString) (r : Regs) :
    (absorb r p).run c =
      { r with
        x := ((absorb r p).run c).x, buf := ((absorb r p).run c).buf
        blen := ((absorb r p).run c).blen } := by
  induction p generalizing r with
  | nil => rfl
  | cons b p ih =>
    rw [absorb_cons_run, ih]
    simp only [absorbByte, CipherProg.run_map, Regs.holdByte]
    rw [Regs.flushFull_eq]

section
variable (c : Config.Params) (r : Regs) (p : ByteString)
@[simp] theorem absorb_keyv : ((absorb r p).run c).keyv = r.keyv := by rw [absorb_eq]
@[simp] theorem absorb_fam : ((absorb r p).run c).fam = r.fam := by rw [absorb_eq]
@[simp] theorem absorb_key : ((absorb r p).run c).key = r.key := by rw [absorb_eq]
@[simp] theorem absorb_iv : ((absorb r p).run c).iv = r.iv := by rw [absorb_eq]
@[simp] theorem absorb_cinit : ((absorb r p).run c).cinit = r.cinit := by rw [absorb_eq]
@[simp] theorem absorb_ck : ((absorb r p).run c).ck = r.ck := by rw [absorb_eq]
@[simp] theorem absorb_k1 : ((absorb r p).run c).k1 = r.k1 := by rw [absorb_eq]
@[simp] theorem absorb_k2 : ((absorb r p).run c).k2 = r.k2 := by rw [absorb_eq]
@[simp] theorem absorb_lerr : ((absorb r p).run c).lerr = r.lerr := by rw [absorb_eq]
end

/-- Feeding two payloads one after the other is feeding their concatenation (42_cmac_engine.md R174). -/
theorem absorb_append_run (c : Config.Params) (r : Regs) (p q : ByteString) :
    (absorb r (p ++ q)).run c = (absorb ((absorb r p).run c) q).run c := by
  induction p generalizing r with
  | nil => rfl
  | cons b p ih => rw [List.cons_append, absorb_cons_run, ih, absorb_cons_run]

theorem absorb_append_trace (c : Config.Params) (r : Regs) (p q : ByteString) :
    (absorb r (p ++ q)).trace c =
      (absorb r p).trace c ++ (absorb ((absorb r p).run c) q).trace c := by
  induction p generalizing r with
  | nil => rfl
  | cons b p ih =>
    rw [List.cons_append, absorb_cons_trace, ih, absorb_cons_trace, absorb_cons_run, List.append_assoc]

end Sys2Proof.Machine
end

