-- ==== Sys2Proof/Laws/Ops.lean ====
section
/-! SUPPORT. Laws of the shared operations: XOR, the block cipher, the blocks of a payload and the four
CBC procedures. -/

namespace Sys2Proof.Machine

/-! ## XOR and slices -/

@[simp] theorem xorBytes_nil : xorBytes [] [] = [] := rfl

@[simp] theorem xorBytes_cons (a b : Byte) (x y : ByteString) :
    xorBytes (a :: x) (b :: y) = (a ^^^ b) :: xorBytes x y := rfl

theorem xorBytes_length {a b : ByteString} (h : a.length = b.length) :
    (xorBytes a b).length = a.length := by simp [xorBytes, h]

theorem xorBytes_comm (a b : ByteString) : xorBytes a b = xorBytes b a := by
  simp only [xorBytes]
  exact List.zipWith_comm_of_comm fun x y => BitVec.xor_comm x y

/-- XORing the same string twice gives the string back. -/
theorem xorBytes_cancel {a b : ByteString} (h : a.length = b.length) :
    xorBytes (xorBytes a b) b = a := by
  induction a generalizing b with
  | nil => cases b <;> simp_all [xorBytes]
  | cons x a ih =>
    cases b with
    | nil => simp at h
    | cons y b =>
      simp only [xorBytes_cons, ih (Nat.succ.inj h), BitVec.xor_assoc, BitVec.xor_self,
        BitVec.xor_zero]

theorem xorBytes_zeros {a : ByteString} {n : Nat} (h : a.length = n) : xorBytes a (zeros n) = a := by
  subst h
  induction a with
  | nil => rfl
  | cons x a ih => simpa [zeros, List.replicate_succ] using ih

theorem slice_zero (n : Nat) (b : ByteString) : slice 0 n b = b.take n := by simp [slice]

@[simp] theorem slice_length (lo hi : Nat) (b : ByteString) :
    (slice lo hi b).length = min (hi - lo) (b.length - lo) := by simp [slice]

/-! ## The block cipher (00_scope.md R10) -/

@[simp] theorem bce_length (f : Family) (k b : ByteString) :
    (Config.bce f k b).length = Config.bs f := by simp [Config.bce]

@[simp] theorem bcd_length (f : Family) (k b : ByteString) :
    (Config.bcd f k b).length = Config.bs f := by simp [Config.bcd]

/-- Decryption undoes encryption. -/
theorem bcd_bce {f : Family} {k b : ByteString} (h : b.length = Config.bs f) :
    Config.bcd f k (Config.bce f k b) = b := by
  simp [Config.bcd, Config.bce, Bytes.ofList_data_of_length h]

/-- Encryption undoes decryption. -/
theorem bce_bcd {f : Family} {k b : ByteString} (h : b.length = Config.bs f) :
    Config.bce f k (Config.bcd f k b) = b := by
  simp [Config.bcd, Config.bce, Bytes.ofList_data_of_length h]

@[simp] theorem params_enc : Config.params.enc = Config.bce := rfl
@[simp] theorem params_dec : Config.params.dec = Config.bcd := rfl
@[simp] theorem params_lrecvChain : Config.params.lrecvChain = .prevCiphered := rfl
@[simp] theorem params_cmacDefaultN : Config.params.cmacDefaultN = 16 := rfl

theorem bs_pos (f : Family) : 0 < Config.bs f := by cases f <;> decide
theorem bs_le (f : Family) : Config.bs f ≤ 16 := by cases f <;> decide
theorem kl_le (f : Family) : Config.kl f ≤ 24 := by cases f <;> decide

@[simp] theorem chainValue_length (r : Regs) : r.chainValue.length = Config.bs r.fam := by
  have := bs_le r.fam
  simp [Regs.chainValue, Regs.blockSize]; omega

@[simp] theorem loadedKey_length (r : Regs) : r.loadedKey.length = Config.kl r.fam := by
  have := kl_le r.fam
  simp [Regs.loadedKey]; omega

/-! ## Blocks -/

@[simp] theorem blocks_length (bs n : Nat) (p : ByteString) : (blocks bs n p).length = n := by
  induction n generalizing p with
  | zero => rfl
  | succ n ih => simp [blocks, ih]

/-- Block `i` is the `bs` bytes from index `i * bs`. -/
theorem blocks_getElem? {bs n i : Nat} (p : ByteString) (h : i < n) :
    (blocks bs n p)[i]? = some ((p.drop (i * bs)).take bs) := by
  induction n generalizing p i with
  | zero => omega
  | succ n ih =>
    cases i with
    | zero => simp [blocks]
    | succ i =>
      simp only [blocks, List.getElem?_cons_succ, ih (p.drop bs) (by omega : i < n), List.drop_drop,
        Nat.succ_mul, Nat.add_comm bs]

/-- The blocks of a payload of whole blocks are the whole payload. -/
theorem blocks_flatten {bs n : Nat} {p : ByteString} (h : p.length = n * bs) :
    (blocks bs n p).flatten = p := by
  induction n generalizing p with
  | zero => simp_all [blocks]
  | succ n ih =>
    rw [blocks, List.flatten_cons, ih (by simp [h, Nat.succ_mul]), List.take_append_drop]

theorem length_of_mem_blocks {bs n : Nat} {p : ByteString} (h : p.length = n * bs) :
    ∀ b ∈ blocks bs n p, b.length = bs := by
  induction n generalizing p with
  | zero => simp [blocks]
  | succ n ih =>
    simp only [blocks, List.mem_cons, forall_eq_or_imp]
    exact ⟨by simp [h, Nat.succ_mul], ih (by simp [h, Nat.succ_mul])⟩

theorem blocks_append {bs n m : Nat} {p q : ByteString} (h : p.length = n * bs) :
    blocks bs (n + m) (p ++ q) = blocks bs n p ++ blocks bs m q := by
  induction n generalizing p with
  | zero => simp_all [blocks]
  | succ n ih =>
    have hb : bs ≤ p.length := by rw [h, Nat.succ_mul]; omega
    rw [show n + 1 + m = (n + m) + 1 by omega, blocks, blocks, List.drop_append_of_le_length hb,
      List.take_append_of_le_length hb, ih (by simp [h, Nat.succ_mul])]
    rfl

theorem payloadBlocks_eq {bs n : Nat} {p : ByteString} (hb : 0 < bs) (h : p.length = n * bs) :
    payloadBlocks bs p = blocks bs n p := by
  rw [payloadBlocks, h, Nat.mul_div_cancel _ hb]

/-- The blocks of a string put together from blocks are those blocks. -/
theorem blocks_of_flatten {bs : Nat} {l : List ByteString} (h : ∀ b ∈ l, b.length = bs) :
    blocks bs l.length l.flatten = l := by
  induction l with
  | nil => rfl
  | cons a l ih =>
    have ha : a.length = bs := h a (by simp)
    simp only [List.length_cons, blocks, List.flatten_cons]
    rw [List.take_append_of_le_length ha.ge, List.drop_append_of_le_length ha.ge,
      ← ha, List.take_length, List.drop_length, ha, List.nil_append, ih fun b hb => h b (by simp [hb])]

theorem flatten_length {bs : Nat} {l : List ByteString} (h : ∀ b ∈ l, b.length = bs) :
    l.flatten.length = l.length * bs := by
  induction l with
  | nil => simp
  | cons a l ih =>
    rw [List.flatten_cons, List.length_append, h a (by simp), ih fun b hb => h b (by simp [hb]),
      List.length_cons, Nat.succ_mul, Nat.add_comm]

theorem payloadBlocks_flatten {bs : Nat} {l : List ByteString} (hb : 0 < bs)
    (h : ∀ b ∈ l, b.length = bs) : payloadBlocks bs l.flatten = l := by
  rw [payloadBlocks_eq hb (flatten_length h), blocks_of_flatten h]

theorem isWholeBlocks_iff {bs : Nat} {p : ByteString} :
    isWholeBlocks bs p = true ↔ 0 < p.length ∧ p.length % bs = 0 := by
  simp [isWholeBlocks, List.length_pos_iff]

theorem isWholeBlocks_of_length {bs n : Nat} {p : ByteString} (hb : 0 < bs) (hn : 1 ≤ n)
    (h : p.length = n * bs) : isWholeBlocks bs p = true := by
  rw [isWholeBlocks_iff, h]
  exact ⟨Nat.mul_pos hn hb, Nat.mul_mod_left n bs⟩

/-- The blocks of an accepted CBC payload are whole, and are together the payload. -/
theorem payloadBlocks_of_isWholeBlocks {bs : Nat} {p : ByteString} (hb : 0 < bs)
    (h : isWholeBlocks bs p = true) :
    (∀ b ∈ payloadBlocks bs p, b.length = bs) ∧ (payloadBlocks bs p).flatten = p := by
  obtain ⟨n, hn⟩ := Nat.dvd_of_mod_eq_zero (isWholeBlocks_iff.1 h).2
  rw [Nat.mul_comm] at hn
  rw [payloadBlocks_eq hb hn]
  exact ⟨length_of_mem_blocks hn, blocks_flatten hn⟩

/-! ## CBC procedures

The blocks a procedure computes, as functions of what its cipher answers. -/

/-- The blocks of StdOut and of LegSend: `O_i = f(P_i xor O_(i-1))` (41_cbc_modes.md R131, R133). -/
def chainOut (f : ByteString → ByteString) : ByteString → List ByteString → List ByteString
  | _, [] => []
  | prev, p :: ps => f (xorBytes p prev) :: chainOut f (f (xorBytes p prev)) ps

/-- The blocks of StdIn and, with the previous ciphered block, of LegRecv: `O_i = f(P_i) xor P_(i-1)`
(41_cbc_modes.md R132, R134). -/
def chainIn (f : ByteString → ByteString) : ByteString → List ByteString → List ByteString
  | _, [] => []
  | prev, p :: ps => xorBytes (f p) prev :: chainIn f p ps

section
variable (c : Config.Params) (f : ByteString → CipherProg ByteString)

theorem stdOut_run (v : ByteString) (ps : List ByteString) :
    (stdOut f v ps).run c = chainOut (fun b => (f b).run c) v ps := by
  induction ps generalizing v with
  | nil => rfl
  | cons p ps ih => simp [stdOut, chainOut, ih]

theorem stdIn_run (v : ByteString) (ps : List ByteString) :
    (stdIn f v ps).run c = chainIn (fun b => (f b).run c) v ps := by
  induction ps generalizing v with
  | nil => rfl
  | cons p ps ih => simp [stdIn, chainIn, ih]

/-- LegSend is StdOut with the other cipher direction (41_cbc_modes.md R133). -/
theorem legSend_eq_stdOut (v : ByteString) (ps : List ByteString) :
    legSend f v ps = stdOut f v ps := by
  induction ps generalizing v with
  | nil => rfl
  | cons p ps ih => simp only [legSend, stdOut, ih]

/-- With the previous ciphered block LegRecv is StdIn (41_cbc_modes.md R134). -/
theorem legRecv_eq_stdIn (v : ByteString) (ps : List ByteString) :
    legRecv .prevCiphered f v ps = stdIn f v ps := by
  induction ps generalizing v with
  | nil => rfl
  | cons p ps ih => simp only [legRecv, stdIn, ih]

end

@[simp] theorem chainOut_length (f : ByteString → ByteString) (v : ByteString)
    (ps : List ByteString) : (chainOut f v ps).length = ps.length := by
  induction ps generalizing v with
  | nil => rfl
  | cons p ps ih => simp [chainOut, ih]

@[simp] theorem chainIn_length (f : ByteString → ByteString) (v : ByteString)
    (ps : List ByteString) : (chainIn f v ps).length = ps.length := by
  induction ps generalizing v with
  | nil => rfl
  | cons p ps ih => simp [chainIn, ih]

theorem length_of_mem_chainOut {f : ByteString → ByteString} {n : Nat} (hf : ∀ b, (f b).length = n)
    (v : ByteString) (ps : List ByteString) : ∀ b ∈ chainOut f v ps, b.length = n := by
  induction ps generalizing v with
  | nil => simp [chainOut]
  | cons p ps ih => simpa [chainOut, hf] using ih _

theorem length_of_mem_chainIn {f : ByteString → ByteString} {n : Nat} (hf : ∀ b, (f b).length = n)
    {v : ByteString} {ps : List ByteString} (hv : v.length = n) (hp : ∀ b ∈ ps, b.length = n) :
    ∀ b ∈ chainIn f v ps, b.length = n := by
  induction ps generalizing v with
  | nil => simp [chainIn]
  | cons p ps ih =>
    simp only [chainIn, List.mem_cons, forall_eq_or_imp]
    exact ⟨by rw [xorBytes_length (by rw [hf, hv]), hf],
      ih (hp p (by simp)) fun b hb => hp b (by simp [hb])⟩

/-- Output block `i` of `chainOut`, from payload block `i` and the output block before. -/
theorem chainOut_getElem? (f : ByteString → ByteString) (v : ByteString) (ps : List ByteString)
    {i : Nat} (h : i < ps.length) :
    (chainOut f v ps)[i]? = some (f (xorBytes (ps.getD i [])
      (if i = 0 then v else (chainOut f v ps).getD (i - 1) []))) := by
  induction ps generalizing v i with
  | nil => simp at h
  | cons p ps ih =>
    cases i with
    | zero => simp [chainOut]
    | succ i =>
      have hi : i < ps.length := by simpa using h
      simp only [chainOut, List.getElem?_cons_succ, ih _ hi]
      cases i <;> simp

/-- Output block `i` of `chainIn`, from payload blocks `i` and `i - 1`. -/
theorem chainIn_getElem? (f : ByteString → ByteString) (v : ByteString) (ps : List ByteString)
    {i : Nat} (h : i < ps.length) :
    (chainIn f v ps)[i]? = some (xorBytes (f (ps.getD i []))
      (if i = 0 then v else ps.getD (i - 1) [])) := by
  induction ps generalizing v i with
  | nil => simp at h
  | cons p ps ih =>
    cases i with
    | zero => simp [chainIn]
    | succ i =>
      have hi : i < ps.length := by simpa using h
      simp only [chainIn, List.getElem?_cons_succ, ih _ hi]
      cases i <;> simp

/-- `chainOut` over `P || Q` goes on from the last output block (41_cbc_modes.md R142). -/
theorem chainOut_append (f : ByteString → ByteString) (v : ByteString) (ps qs : List ByteString) :
    chainOut f v (ps ++ qs) = chainOut f v ps ++ chainOut f ((chainOut f v ps).getLastD v) qs := by
  induction ps generalizing v with
  | nil => rfl
  | cons p ps ih =>
    simp only [List.cons_append, chainOut, ih, List.getLastD_cons]

/-- `chainIn` over `P || Q` goes on from the last payload block (41_cbc_modes.md R142). -/
theorem chainIn_append (f : ByteString → ByteString) (v : ByteString) (ps qs : List ByteString) :
    chainIn f v (ps ++ qs) = chainIn f v ps ++ chainIn f (ps.getLastD v) qs := by
  induction ps generalizing v with
  | nil => rfl
  | cons p ps ih =>
    simp only [List.cons_append, chainIn, ih, List.getLastD_cons]

/-- `chainIn` with the inverse cipher undoes `chainOut` (41_cbc_modes.md R141). -/
theorem chainIn_chainOut {f g : ByteString → ByteString} {n : Nat} (hf : ∀ b, (f b).length = n)
    (hg : ∀ b, b.length = n → g (f b) = b) {v : ByteString} {ps : List ByteString}
    (hv : v.length = n) (hp : ∀ b ∈ ps, b.length = n) : chainIn g v (chainOut f v ps) = ps := by
  induction ps generalizing v with
  | nil => rfl
  | cons p ps ih =>
    have hpn : p.length = n := hp p (by simp)
    rw [chainOut, chainIn, hg _ (by rw [xorBytes_length (by rw [hpn, hv]), hpn]),
      xorBytes_cancel (by rw [hpn, hv]), ih (hf _) fun b hb => hp b (by simp [hb])]

/-- Both disciplines of CBC.OUT chain outward, with `BCE` or `BCD` (41_cbc_modes.md R130, R131, R133). -/
theorem cbcOutBlocks_run (c : Config.Params) (r : Regs) (ps : List ByteString) :
    (cbcOutBlocks r ps).run c =
      chainOut
        ((if r.fam = .tdes3 ∨ r.fam = .aes then c.enc else c.dec) r.fam r.loadedKey)
        r.chainValue ps := by
  cases h : r.fam <;>
    simp [cbcOutBlocks, h, Config.discipline, legSend_eq_stdOut, stdOut_run]

/-- Both disciplines of CBC.IN chain inward with `BCD` (41_cbc_modes.md R130, R132, R134). -/
theorem cbcInBlocks_run (c : Config.Params) (r : Regs) (ps : List ByteString) :
    (cbcInBlocks .prevCiphered r ps).run c =
      chainIn (c.dec r.fam r.loadedKey) r.chainValue ps := by
  cases h : r.fam <;>
    simp [cbcInBlocks, h, Config.discipline, legRecv_eq_stdIn, stdIn_run]

/-! ## The calls of the CBC procedures -/

/-- Coming in, the blocks given to the cipher are the payload's, under either chaining. -/
theorem legRecv_trace (c : Config.Params) (f : Family) (k : ByteString)
    (chain : Config.LrecvChain) (v : ByteString) (ps : List ByteString) :
    (legRecv chain (callDec f k) v ps).trace c = ps.map (⟨.dec, f, k, ·⟩) := by
  induction ps generalizing v with
  | nil => rfl
  | cons p ps ih => simp [legRecv, ih]

theorem stdIn_trace (c : Config.Params) (f : Family) (k : ByteString) (v : ByteString)
    (ps : List ByteString) :
    (stdIn (callDec f k) v ps).trace c = ps.map (⟨.dec, f, k, ·⟩) := by
  rw [← legRecv_eq_stdIn, legRecv_trace]

/-- Going out, the answers of the cipher are the blocks returned. -/
theorem stdOut_answers (c : Config.Params) {f : ByteString → CipherProg ByteString}
    (hf : ∀ b, ((f b).trace c).map (answerCall c) = [(f b).run c]) (v : ByteString)
    (ps : List ByteString) :
    ((stdOut f v ps).trace c).map (answerCall c) = (stdOut f v ps).run c := by
  induction ps generalizing v with
  | nil => rfl
  | cons p ps ih => simp [stdOut, hf, ih]

/-- Going out, every call has whatever a call made for one block-sized input has. -/
theorem stdOut_trace_mem (c : Config.Params) {f : ByteString → CipherProg ByteString}
    {Q : CipherCall → Prop} {n : Nat} (hf : ∀ b, b.length = n → ∀ q ∈ (f b).trace c, Q q)
    (hr : ∀ b, ((f b).run c).length = n) {v : ByteString} {ps : List ByteString}
    (hv : v.length = n) (hp : ∀ b ∈ ps, b.length = n) : ∀ q ∈ (stdOut f v ps).trace c, Q q := by
  induction ps generalizing v with
  | nil => simp [stdOut]
  | cons p ps ih =>
    intro q hq
    have hpn : p.length = n := hp p (by simp)
    simp only [stdOut, CipherProg.trace_bind, CipherProg.trace_map, List.mem_append] at hq
    rcases hq with hq | hq
    · exact hf _ (by rw [xorBytes_length (by rw [hpn, hv]), hpn]) q hq
    · exact ih (hr _) (fun b hb => hp b (by simp [hb])) q hq

/-- The calls of CBC.IN, under either value of `LRECV_CHAIN` (70_reset_and_hazards.md R308). -/
theorem cbcInBlocks_trace (c : Config.Params) (chain : Config.LrecvChain) (r : Regs)
    (ps : List ByteString) :
    (cbcInBlocks chain r ps).trace c = ps.map (⟨.dec, r.fam, r.loadedKey, ·⟩) := by
  unfold cbcInBlocks
  split
  · exact stdIn_trace ..
  · exact legRecv_trace ..

/-- The calls of CBC.OUT answer the blocks it returns (70_reset_and_hazards.md R308). -/
theorem cbcOutBlocks_answers (c : Config.Params) (r : Regs) (ps : List ByteString) :
    ((cbcOutBlocks r ps).trace c).map (answerCall c) = (cbcOutBlocks r ps).run c := by
  unfold cbcOutBlocks
  split
  · exact stdOut_answers c (fun _ => rfl) _ _
  · rw [legSend_eq_stdOut]; exact stdOut_answers c (fun _ => rfl) _ _

end Sys2Proof.Machine
end

