-- ==== Sys2Proof/Laws/Cmac.lean ====
section
/-! SUPPORT. Laws of the CMAC engine: the doubling, feeding a message, and its closed form
(42_cmac_engine.md R171, R174, R178; 10_state.md R34). -/

namespace Sys2Proof.Machine

/-! ## The doubling -/

@[simp] theorem shiftLeftOne_length (l : ByteString) : (shiftLeftOne l).length = l.length := by
  match l with
  | [] => rfl
  | [_] => rfl
  | _ :: c :: r => simp [shiftLeftOne, shiftLeftOne_length (c :: r)]

@[simp] theorem xorLast_length (k : Byte) (l : ByteString) : (xorLast k l).length = l.length := by
  match l with
  | [] => rfl
  | [_] => rfl
  | _ :: c :: r => simp [xorLast, xorLast_length k (c :: r)]

/-- The bytes of the doubling. -/
theorem dbl_data (v : Bytes 16) :
    (dbl v).data =
      if v.data.headD 0 >>> 7 = 1 then xorLast 0x87 (shiftLeftOne v.data)
      else shiftLeftOne v.data := by
  rw [dbl, Bytes.ofList_data_of_length]
  · rfl
  · split <;> simp

/-- Byte `i` of a string shifted left takes its low bit from the next byte; the last takes a zero. -/
theorem shiftLeftOne_getD (l : ByteString) {i : Nat} (h : i < l.length) :
    (shiftLeftOne l).getD i 0 = (l.getD i 0 <<< 1) ||| (l.getD (i + 1) 0 >>> 7) := by
  match l, i with
  | [], _ => simp at h
  | [b], 0 => simp [shiftLeftOne]
  | [b], i + 1 => simp at h
  | b :: c :: r, 0 => simp [shiftLeftOne]
  | b :: c :: r, i + 1 =>
    have := shiftLeftOne_getD (c :: r) (i := i) (by simpa using h)
    simpa [shiftLeftOne] using this

/-- Only the last byte is XORed. -/
theorem xorLast_getD (k : Byte) (l : ByteString) {i : Nat} (h : i < l.length) :
    (xorLast k l).getD i 0 = if i + 1 = l.length then l.getD i 0 ^^^ k else l.getD i 0 := by
  match l, i with
  | [], _ => simp at h
  | [b], 0 => simp [xorLast]
  | [b], i + 1 => simp at h
  | b :: c :: r, 0 => simp [xorLast]
  | b :: c :: r, i + 1 =>
    have := xorLast_getD k (c :: r) (i := i) (by simpa using h)
    simpa [xorLast] using this

/-! ## Feeding a message -/

/-- A byte that finds room is stored behind the held ones (R174). -/
theorem absorbByte_of_room {r : Regs} (b : Byte) (h : r.blen ≠ 16) :
    absorbByte r b = .done { r with buf := r.buf.set r.blen.val b, blen := r.blen + 1 } := by
  simp only [absorbByte, Regs.flushFull, if_neg h]; rfl

/-- A byte that finds a full block chains it in first (R174). -/
theorem absorbByte_of_full (c : Config.Params) {r : Regs} (b : Byte) (h : r.blen = 16) :
    (absorbByte r b).run c =
      { r with
        x := Bytes.ofList 16 (c.enc .aes r.ck.data (xorBytes r.x.data r.buf.data))
        buf := (Bytes.zero 16).set 0 b
        blen := 1 } := by
  simp [absorbByte, Regs.flushFull, h, Regs.holdByte]

/-- A byte makes a cipher call when, and only when, it finds a full block (R174). -/
theorem absorbByte_trace (c : Config.Params) (r : Regs) (b : Byte) :
    (absorbByte r b).trace c =
      if r.blen = 16 then [⟨.enc, .aes, r.ck.data, xorBytes r.x.data r.buf.data⟩] else [] := by
  simp [absorbByte, Regs.flushFull]

@[simp] theorem absorbByte_ck (c : Config.Params) (r : Regs) (b : Byte) :
    ((absorbByte r b).run c).ck = r.ck := by
  simpa [absorb_cons_run] using absorb_ck c r [b]

@[simp] theorem absorbByte_cinit (c : Config.Params) (r : Regs) (b : Byte) :
    ((absorbByte r b).run c).cinit = r.cinit := by
  simpa [absorb_cons_run] using absorb_cinit c r [b]

theorem absorb_snoc_run (c : Config.Params) (r : Regs) (p : ByteString) (b : Byte) :
    (absorb r (p ++ [b])).run c = (absorbByte ((absorb r p).run c) b).run c := by
  rw [absorb_append_run, absorb_cons_run, absorb_nil, CipherProg.run_done]

/-- The held count after one more byte, as a number. -/
theorem blen_succ_val {n : Fin 17} (h : n ≠ 16) : (n + 1).val = n.val + 1 := by
  have : n.val ≠ 16 := fun e => h (Fin.ext e)
  have := n.isLt
  rw [Fin.val_add]
  simp; omega

/-- `C_i` of 42_cmac_engine.md R178: the CBC-MAC of the first `i` blocks of `m`. -/
def macChain (enc : ByteString → ByteString) (m : ByteString) : Nat → ByteString
  | 0 => zeros 16
  | i + 1 => enc (xorBytes (macChain enc m i) ((m.drop (16 * i)).take 16))

/-- The chain over blocks that lie whole in `m` does not depend on what follows `m`. -/
theorem macChain_append (enc : ByteString → ByteString) (m q : ByteString) {i : Nat}
    (h : 16 * i ≤ m.length) : macChain enc (m ++ q) i = macChain enc m i := by
  induction i with
  | zero => rfl
  | succ i ih =>
    rw [macChain, macChain, ih (by omega), List.drop_append_of_le_length (by omega),
      List.take_append_of_le_length (by simp; omega)]

/-- The CMAC registers after a message fed from the start of a message, in closed form (10_state.md
R34): with `j = ceil(n / 16) - 1` full blocks before the last one. -/
structure MessageHeld (enc : ByteString → ByteString) (m : ByteString) (r : Regs) : Prop where
  x : r.x.data = macChain enc m ((m.length - 1) / 16)
  blen : r.blen.val = m.length - 16 * ((m.length - 1) / 16)
  buf : r.buf.data = m.drop (16 * ((m.length - 1) / 16)) ++ zeros (16 - r.blen.val)

/-- One more byte keeps the closed form. -/
theorem MessageHeld.snoc {c : Config.Params} {enc : ByteString → ByteString} {m : ByteString}
    {r : Regs} (h : MessageHeld enc m r) (henc : c.enc .aes r.ck.data = enc)
    (hlen : ∀ b, (enc b).length = 16) (b : Byte) :
    MessageHeld enc (m ++ [b]) ((absorbByte r b).run c) := by
  subst henc
  have hb := h.blen
  by_cases hfull : r.blen = 16
  · have h16 : r.blen.val = 16 := by rw [hfull]; rfl
    have hj : (m.length + 1 - 1) / 16 = (m.length - 1) / 16 + 1 := by omega
    have hm : 16 * ((m.length - 1) / 16 + 1) = m.length := by omega
    have hbuf := h.buf
    rw [h16] at hbuf
    rw [absorbByte_of_full c b hfull]
    refine ⟨?_, ?_, ?_⟩
    · simp only [List.length_append, List.length_singleton]
      rw [Bytes.ofList_data_of_length (hlen _), hj, macChain_append _ _ _ (by omega), macChain, h.x,
        hbuf, List.take_of_length_le (by simp; omega)]
      simp [zeros]
    · simp only [List.length_append, List.length_singleton]
      rw [hj, hm]; simp
    · simp only [List.length_append, List.length_singleton]
      rw [hj, hm]
      simp [zeros, List.replicate_succ]
  · have h16 : r.blen.val ≠ 16 := fun e => hfull (Fin.ext e)
    have hlt := r.blen.isLt
    have hj : (m.length + 1 - 1) / 16 = (m.length - 1) / 16 := by omega
    rw [absorbByte_of_room b hfull, CipherProg.run_done]
    have hv := blen_succ_val hfull
    refine ⟨?_, ?_, ?_⟩
    · simp only [List.length_append, List.length_singleton]
      rw [hj, macChain_append _ _ _ (by omega), h.x]
    · simp only [List.length_append, List.length_singleton]
      rw [hv, hj]; omega
    · simp only [List.length_append, List.length_singleton, Bytes.set_data]
      rw [hv, hj, h.buf, List.drop_append_of_le_length (by omega),
        List.set_append_right _ _ (by simp; omega)]
      have hd : r.blen.val - (m.drop (16 * ((m.length - 1) / 16))).length = 0 := by
        simp; omega
      rw [hd, List.append_assoc, zeros, zeros,
        show 16 - r.blen.val = (16 - (r.blen.val + 1)) + 1 by omega, List.replicate_succ]
      rfl

/-- From the start of a message, feeding `m` reaches the closed form (10_state.md R34). -/
theorem messageHeld_absorb {c : Config.Params} {r : Regs}
    (hlen : ∀ b, (c.enc .aes r.ck.data b).length = 16) (hx : r.x = Bytes.zero 16)
    (hb : r.buf = Bytes.zero 16) (hn : r.blen = 0) (m : ByteString) :
    MessageHeld (c.enc .aes r.ck.data) m ((absorb r m).run c) := by
  induction m using List.reverseRecOn with
  | nil => exact ⟨by simp [hx, macChain], by simp [hn], by simp [hb, hn]⟩
  | append_singleton m b ih =>
    rw [absorb_snoc_run]
    exact ih.snoc (by simp) hlen b

@[simp] theorem lastBlock_length (r : Regs) : (lastBlock r).length = 16 := by
  have := r.blen.isLt
  unfold lastBlock
  split
  · simp [xorBytes]
  · rename_i h
    have : r.blen.val ≠ 16 := fun e => h (Fin.ext e)
    rw [xorBytes_length] <;> simp <;> omega

/-! ## The calls of a message -/

/-- Every call while a message is fed is a `BCE` of AES under `CK` (40_block_cipher_adapter.md R109),
of one block. -/
theorem absorb_trace_mem (c : Config.Params) (p : ByteString) (r : Regs) :
    ∀ q ∈ (absorb r p).trace c,
      q.dir = .enc ∧ q.fam = .aes ∧ q.key = r.ck.data ∧ q.block.length = 16 := by
  induction p generalizing r with
  | nil => simp
  | cons b p ih =>
    intro q hq
    rw [absorb_cons_trace, List.mem_append, absorbByte_trace] at hq
    rcases hq with hq | hq
    · split at hq <;> simp at hq
      subst hq
      simp [xorBytes]
    · simpa using ih _ q hq

/-- The number of calls while a payload is fed (70_reset_and_hazards.md R308): one for each full block that
turns out not to be the last. -/
theorem absorb_trace_length (c : Config.Params) (p : ByteString) (r : Regs) :
    ((absorb r p).trace c).length = (r.blen.val + p.length + 15) / 16 - 1 := by
  induction p generalizing r with
  | nil =>
    have := r.blen.isLt
    simp; omega
  | cons b p ih =>
    have hlt := r.blen.isLt
    rw [absorb_cons_trace, List.length_append, absorbByte_trace, ih, List.length_cons]
    by_cases h : r.blen = 16
    · rw [absorbByte_of_full c b h, if_pos h]
      simp [h]; omega
    · rw [absorbByte_of_room b h, if_neg h]
      have hv := blen_succ_val h
      simp [hv]; omega

end Sys2Proof.Machine
end

