-- ==== Sys2Proof/Laws/Cost.lean ====
section
/-! SUPPORT. The calls of each command that uses the cipher (70_reset_and_hazards.md R308), and how lists of
calls of one direction are counted. -/

namespace Sys2Proof.Machine

section
variable (c : Config.Params) (p : ByteString) (s : State)

@[simp] theorem callTrace_ecbEnc : callTrace c (.ecbEnc p) s =
    if s.regs.keyv = false then []
    else if p.length ≠ s.regs.blockSize then []
    else [⟨.enc, s.regs.fam, s.regs.loadedKey, p⟩] := by simp [callTrace, commandProg, ecbEncProg]

@[simp] theorem callTrace_ecbDec : callTrace c (.ecbDec p) s =
    if s.regs.keyv = false then []
    else if p.length ≠ s.regs.blockSize then []
    else [⟨.dec, s.regs.fam, s.regs.loadedKey, p⟩] := by simp [callTrace, commandProg, ecbDecProg]

@[simp] theorem callTrace_cbcOut : callTrace c (.cbcOut p) s =
    if s.regs.keyv = false then []
    else if isWholeBlocks s.regs.blockSize p = false then []
    else (cbcOutBlocks s.regs (payloadBlocks s.regs.blockSize p)).trace c := by
  simp [callTrace, commandProg, cbcOutProg]

@[simp] theorem callTrace_cbcIn : callTrace c (.cbcIn p) s =
    if s.regs.keyv = false then []
    else if isWholeBlocks s.regs.blockSize p = false then []
    else (payloadBlocks s.regs.blockSize p).map (⟨.dec, s.regs.fam, s.regs.loadedKey, ·⟩) := by
  simp [callTrace, commandProg, cbcInProg, cbcInBlocks_trace]

@[simp] theorem callTrace_cmacInit (t : Byte) : callTrace c (.cmacInit t p) s =
    if t ≠ familyCode .aes ∨ p.length ≠ 16 then []
    else [⟨.enc, .aes, (Bytes.ofList 16 p).data, zeros 16⟩] := by
  simp [callTrace, commandProg, cmacInitProg]

@[simp] theorem callTrace_cmacUpdate : callTrace c (.cmacUpdate p) s =
    if s.regs.cinit = false then [] else (absorb s.regs p).trace c := by
  simp [callTrace, commandProg, cmacUpdateProg]

@[simp] theorem callTrace_cmacFinal (n : Byte) : callTrace c (.cmacFinal n p) s =
    if Config.cmacMaxN < n.toNat then []
    else if s.regs.cinit = false then []
    else if p.length ≠ 0 then []
    else [⟨.enc, .aes, s.regs.ck.data, xorBytes s.regs.x.data (lastBlock s.regs)⟩] := by
  simp [callTrace, commandProg, cmacFinalProg]

end

theorem countCalls_enc {t : List CipherCall} (h : ∀ q ∈ t, q.dir = .enc) :
    countCalls t = ⟨t.length, 0⟩ := by
  simp only [countCalls, Calls.mk.injEq]
  exact ⟨List.countP_eq_length.2 (by simpa using h),
    List.countP_eq_zero.2 fun q hq => by simp [h q hq]⟩

theorem countCalls_dec {t : List CipherCall} (h : ∀ q ∈ t, q.dir = .dec) :
    countCalls t = ⟨0, t.length⟩ := by
  simp only [countCalls, Calls.mk.injEq]
  exact ⟨List.countP_eq_zero.2 fun q hq => by simp [h q hq],
    List.countP_eq_length.2 (by simpa using h)⟩

end Sys2Proof.Machine
end

