-- ==== Sys2Proof/Laws/Decode.lean ====
section
/-! SUPPORT. What the decoder accepts, and how frames and lengths read back. -/

namespace Sys2Proof

@[simp] theorem be16_length (n : Nat) : (be16 n).length = 2 := rfl

/-- A 16-bit length reads back as written. -/
theorem lenField_be16 {n : Nat} (h : n ≤ 65535) :
    lenField (BitVec.ofNat 8 (n / 256)) (BitVec.ofNat 8 n) = n := by
  simp only [lenField, BitVec.toNat_ofNat]; omega

theorem responseFrame_eq (st : Byte) (d : ByteString) :
    responseFrame st d =
      st :: BitVec.ofNat 8 (d.length / 256) :: BitVec.ofNat 8 d.length :: d := rfl

/-- A frame whose payload fits decodes by its opcode, argument and payload. -/
theorem decode_commandFrame (op arg : Byte) {p : ByteString} (h : p.length ≤ 65535) :
    decode (commandFrame op arg p) = decodeCommand op arg p := by
  simp [commandFrame, be16, decode, lenField_be16 h]

/-- Everything the decoder can do: refuse a malformed frame, or read its fields. -/
theorem decode_cases (f : ByteString) :
    ((f.length < 4 ∨ f.length ≠ 4 + lenField (f.getD 2 0) (f.getD 3 0)) ∧
      decode f = .error .badFrame) ∨
    (∃ op arg hi lo p, f = op :: arg :: hi :: lo :: p ∧ p.length = lenField hi lo ∧
      decode f = decodeCommand op arg p) := by
  match f with
  | [] => left; simp [decode]
  | [_] => left; simp [decode]
  | [_, _] => left; simp [decode]
  | [_, _, _] => left; simp [decode]
  | op :: arg :: hi :: lo :: p =>
    by_cases h : p.length = lenField hi lo
    · right; exact ⟨op, arg, hi, lo, p, rfl, h, by simp [decode, h]⟩
    · left; refine ⟨.inr ?_, by simp [decode, h]⟩
      change _ ≠ 4 + lenField hi lo
      simp only [List.length_cons]; omega

theorem lenField_le (hi lo : Byte) : lenField hi lo ≤ 65535 := by
  have := hi.isLt; have := lo.isLt; simp only [lenField]; omega

/-- A length field is the big-endian form of its value. -/
theorem be16_lenField (hi lo : Byte) : be16 (lenField hi lo) = [hi, lo] := by
  have := hi.isLt; have := lo.isLt
  simp only [be16, lenField, List.cons.injEq, and_true]
  constructor <;> apply BitVec.eq_of_toNat_eq <;> simp <;> omega

theorem familyOfCode_familyCode (f : Family) : familyOfCode (familyCode f) = some f := by
  cases f <;> rfl

/-- A family code is the code of its family. -/
theorem familyCode_of_familyOfCode {b : Byte} {f : Family} (h : familyOfCode b = some f) :
    familyCode f = b := by
  unfold familyOfCode at h
  split at h <;> cases h <;> apply BitVec.eq_of_toNat_eq <;> simp_all [familyCode]

theorem familyOfCode_eq_none_iff (b : Byte) : familyOfCode b = none ↔ 3 < b.toNat := by
  unfold familyOfCode
  split
  case h_5 =>
    simp only [imp_false] at *
    simp only [true_iff]; omega
  all_goals simp_all

theorem zeroArg_ok_iff {arg : Byte} {i j : Instr} : zeroArg arg i = .ok j ↔ arg = 0 ∧ i = j := by
  unfold zeroArg; split <;> simp_all

theorem macLenArg_ok_iff {arg : Byte} {i j : Instr} :
    macLenArg arg i = .ok j ↔ arg.toNat ≤ Config.cmacMaxN ∧ i = j := by
  unfold macLenArg; split <;> simp_all

theorem familyArg_ok_iff {arg : Byte} {mk : Family → Instr} {j : Instr} :
    familyArg arg mk = .ok j ↔ ∃ f, arg = familyCode f ∧ mk f = j := by
  unfold familyArg
  constructor
  · intro h; split at h
    · next f hf => exact ⟨f, (familyCode_of_familyOfCode hf).symm, by simpa using h⟩
    · cases h
  · rintro ⟨f, rfl, rfl⟩; simp [familyOfCode_familyCode]

/-- What `decodeCommand` answers is a command with that opcode, argument and payload, and an argument the
opcode accepts. -/
theorem decodeCommand_ok {op arg : Byte} {p : ByteString} {i : Instr}
    (h : decodeCommand op arg p = .ok i) :
    opcode i = op ∧ argByte i = arg ∧ i.payload = p ∧ i.argOk = true := by
  have hop : op = BitVec.ofNat 8 op.toNat := by simp
  unfold decodeCommand at h
  split at h
  case h_18 => cases h
  all_goals
    rename_i hn
    rw [hn] at hop
    simp only [zeroArg_ok_iff, macLenArg_ok_iff, familyArg_ok_iff, Except.ok.injEq] at h
    first
    | subst h
    | obtain ⟨harg, rfl⟩ := h
    | obtain ⟨f, rfl, rfl⟩ := h
    simp_all [opcode, argByte, Instr.payload, Instr.argOk]

/-- The opcode map reads each command back from its own opcode and argument. -/
theorem decodeCommand_opcode {i : Instr} (h : i.argOk = true) :
    decodeCommand (opcode i) (argByte i) i.payload = .ok i := by
  cases i
  case cmacFinal n p =>
    simp only [Instr.argOk, decide_eq_true_eq] at h
    simp [decodeCommand, opcode, argByte, Instr.payload, macLenArg, h]
  all_goals
    simp [decodeCommand, opcode, argByte, Instr.payload, zeroArg, familyArg, familyOfCode_familyCode]

end Sys2Proof
end

