-- ==== Sys2Proof/Laws/Step.lean ====
section
/-! SUPPORT. What executing a command and one step can do, said once. -/

namespace Sys2Proof.Machine

/-! ## What the computations with cipher calls come to -/

section
variable (c : Config.Params) (p : ByteString) (r : Regs)

@[simp] theorem ecbEncProg_run : (ecbEncProg p r).run c =
    if r.keyv = false then .error .noKey
    else if p.length ≠ r.blockSize then .error .badLength
    else .ok (r, c.enc r.fam r.loadedKey p) := by simp [ecbEncProg]

@[simp] theorem ecbDecProg_run : (ecbDecProg p r).run c =
    if r.keyv = false then .error .noKey
    else if p.length ≠ r.blockSize then .error .badLength
    else .ok (r, c.dec r.fam r.loadedKey p) := by simp [ecbDecProg]

@[simp] theorem cbcOutProg_run : (cbcOutProg p r).run c =
    if r.keyv = false then .error .noKey
    else if isWholeBlocks r.blockSize p = false then .error .badLength
    else
      let os := (cbcOutBlocks r (payloadBlocks r.blockSize p)).run c
      .ok ({ r with iv := carryIv os }, os.flatten) := by simp [cbcOutProg]

@[simp] theorem cbcInProg_run (chain : Config.LrecvChain) : (cbcInProg chain p r).run c =
    if r.keyv = false then .error .noKey
    else if isWholeBlocks r.blockSize p = false then .error .badLength
    else
      let ps := payloadBlocks r.blockSize p
      .ok ({ r with iv := carryIv ps }, ((cbcInBlocks chain r ps).run c).flatten) := by
  simp [cbcInProg]

@[simp] theorem cmacInitProg_run (t : Byte) : (cmacInitProg t p r).run c =
    if t ≠ familyCode .aes ∨ p.length ≠ 16 then .error .invalidKey
    else .ok ((r.installCmacKey (Bytes.ofList 16 p)).run c, []) := by simp [cmacInitProg]

@[simp] theorem cmacUpdateProg_run : (cmacUpdateProg p r).run c =
    if r.cinit = false then .error .notInitialized
    else .ok ((absorb r p).run c, []) := by simp [cmacUpdateProg]

@[simp] theorem cmacFinalProg_run (defaultN : Nat) (n : Byte) :
    (cmacFinalProg defaultN n p r).run c =
      if Config.cmacMaxN < n.toNat then .error .badArg
      else if r.cinit = false then .error .notInitialized
      else if p.length ≠ 0 then .error .badLength
      else .ok (r.restartMessage,
        (c.enc .aes r.ck.data (xorBytes r.x.data (lastBlock r))).take (macLength defaultN n)) := by
  simp [cmacFinalProg]

end

/-! ## Commands -/

/-- A command is computed from the registers alone: in every state with the same registers it ends in the
same result. -/
theorem exec_finish (i : Instr) (s : State) :
    ∃ res : Result, ∀ t : State, t.regs = s.regs → exec i t = t.finish res := by
  cases i <;> refine ⟨?_, fun t h => ?_⟩
  all_goals first
    | (obtain ⟨_, tp, tq⟩ := t
       subst h
       simp only [exec, execZeroize, execStat, execKeyLoad, execKeyClear, execEcbEnc, ecbEncWith,
         execEcbDec, ecbDecWith, execIvZero, execIvLoad, execIvGet, execCbcOut, cbcOutWith, execCbcIn,
         cbcInWith, execCmacInit, cmacInitWith, execCmacUpdate, cmacUpdateWith, execCmacFinal,
         cmacFinalWith, execSkdDerive, execRotl1, execKeyPrep]
       exact rfl)
    | skip

/-- Executing a command always gives a next state (70_reset_and_hazards.md R309). -/
theorem exec_next (i : Instr) (s : State) : ∃ s', exec i s = .next s' := by
  obtain ⟨res, h⟩ := exec_finish i s
  rw [h s rfl]
  cases res with
  | error e => exact ⟨_, rfl⟩
  | ok rd => exact ⟨_, rfl⟩

/-- Everything a command can do: end in an error, which writes `LERR` only, or answer. -/
theorem exec_cases {i : Instr} {s s' : State} (h : exec i s = .next s') :
    (∃ e, s' = s.raise e) ∨ ∃ r d, s' = s.reply r d := by
  obtain ⟨res, hr⟩ := exec_finish i s
  rw [hr s rfl] at h
  rcases State.finish_cases h with ⟨e, _, rfl⟩ | ⟨r, d, _, rfl⟩
  · exact .inl ⟨e, rfl⟩
  · exact .inr ⟨r, d, rfl⟩

/-! ## Steps -/

theorem step_idle {s : State} (h : s.pending = []) : step s = .next s := by simp [step, h]

theorem step_reset {s : State} {ms : List HostMove} (h : s.pending = .reset :: ms) :
    step s = .next { s with pending := ms }.hostReset := by simp [step, h]

/-- A step over a frame that decodes runs the command in the state in which the move has been made. -/
theorem step_frame_ok {s : State} {f : ByteString} {ms : List HostMove} {i : Instr}
    (h : s.pending = .frame f :: ms) (hd : decode f = .ok i) :
    step s = exec i { s with pending := ms } := by simp [step, h, hd]

/-- A step over a frame that does not decode ends in the decode error. -/
theorem step_frame_error {s : State} {f : ByteString} {ms : List HostMove} {e : CmdError}
    (h : s.pending = .frame f :: ms) (hd : decode f = .error e) :
    step s = .next ({ s with pending := ms }.raise e) := by simp [step, h, hd]

/-- A frame of a reserved argument or opcode ends in its decode error, whatever the state. -/
theorem step_presenting_error {s : State} {op arg : Byte} {p : ByteString} {e : CmdError}
    (hp : p.length ≤ 65535) (hd : decodeCommand op arg p = .error e) :
    step (s.presenting (commandFrame op arg p)) = .next (s.raise e) := by
  rw [step_frame_error (ms := s.pending) rfl (by rw [decode_commandFrame op arg hp, hd])]

/-- A frame that decodes runs its command in the state itself. -/
theorem step_presenting_ok {s : State} {op arg : Byte} {p : ByteString} {i : Instr}
    (hp : p.length ≤ 65535) (hd : decodeCommand op arg p = .ok i) :
    step (s.presenting (commandFrame op arg p)) = exec i s := by
  rw [step_frame_ok (ms := s.pending) rfl (by rw [decode_commandFrame op arg hp, hd])]

/-- Every step gives a next state. -/
theorem step_next (s : State) : ∃ s', step s = .next s' := by
  match h : s.pending with
  | [] => exact ⟨s, step_idle h⟩
  | .reset :: ms => exact ⟨_, step_reset h⟩
  | .frame f :: ms =>
    match hd : decode f with
    | .ok i => rw [step_frame_ok h hd]; exact exec_next i _
    | .error e => exact ⟨_, step_frame_error h hd⟩

end Sys2Proof.Machine
end

