-- ==== Sys2Proof/Laws/Invariant.lean ====
section
/-! SUPPORT. How the operations on registers keep the registers' invariant (10_state.md R23 to R33), and how
long an answer can be (30_encoding.md R71). -/

namespace Sys2Proof.Machine

variable {c : Config.Params} {r : Regs}

/-- Writing an error status keeps the invariant (60_exceptions.md R260, R263). -/
theorem Regs.Inv.withLerr (h : r.Inv c) {e : Byte} (he : e.toNat ≤ 7) :
    ({ r with lerr := e } : Regs).Inv c :=
  ⟨h.noKey, h.keyPadded, h.ivPadded, h.noCmac, h.subkeys, h.bufPadded, h.freshMessage, he⟩

theorem errorCode_le (e : CmdError) : (errorCode e).toNat ≤ 7 := by cases e <;> decide

/-- Writing a padded chaining value keeps the invariant (10_state.md R23, R26). -/
theorem Regs.Inv.withIv (h : r.Inv c) {v : Bytes 16} (hk : r.keyv = false → v = Bytes.zero 16)
    (hv : ∀ i, Config.bs r.fam ≤ i → i < 16 → v.data[i]? = some 0) :
    ({ r with iv := v } : Regs).Inv c :=
  ⟨fun h0 => ⟨(h.noKey h0).1, (h.noKey h0).2.1, hk h0⟩, h.keyPadded, hv, h.noCmac, h.subkeys,
    h.bufPadded, h.freshMessage, h.statusRange⟩

/-- Starting a message keeps the invariant (10_state.md R30, R32, R33). -/
theorem Regs.Inv.restartMessage (h : r.Inv c) : r.restartMessage.Inv c :=
  ⟨h.noKey, h.keyPadded, h.ivPadded,
    fun h0 => ⟨(h.noCmac h0).1, (h.noCmac h0).2.1, (h.noCmac h0).2.2.1, rfl, rfl, rfl⟩, h.subkeys,
    fun _ _ hi => zeros_getElem? hi, fun _ => rfl, h.statusRange⟩

/-- Installing a CMAC key keeps the invariant (10_state.md R31). -/
theorem Regs.Inv.installCmacKey (h : r.Inv c) (ck : Bytes 16) : ((r.installCmacKey ck).run c).Inv c :=
  ⟨h.noKey, h.keyPadded, h.ivPadded, nofun, fun _ => ⟨rfl, rfl⟩,
    fun _ _ hi => zeros_getElem? hi, fun _ => rfl, h.statusRange⟩

/-- Holding one more message byte keeps the invariant (10_state.md R32, R33). -/
theorem Regs.Inv.absorbByte (h : r.Inv c) (hc : r.cinit = true) (b : Byte) :
    ((absorbByte r b).run c).Inv c := by
  have hno : ∀ {P : Prop}, r.cinit = false → P := fun h0 => by simp [hc] at h0
  by_cases hf : r.blen = 16
  · rw [absorbByte_of_full c b hf]
    refine ⟨h.noKey, h.keyPadded, h.ivPadded, fun h0 => hno h0, h.subkeys, fun i hi h16 => ?_,
      fun h0 => absurd (congrArg Fin.val h0) (by simp), h.statusRange⟩
    have hi1 : 1 ≤ i := by simpa using hi
    simp only [Bytes.set_data, Bytes.zero_data]
    rw [List.getElem?_set_ne (by omega), zeros_getElem? h16]
  · rw [absorbByte_of_room b hf, CipherProg.run_done]
    have hv := blen_succ_val hf
    refine ⟨h.noKey, h.keyPadded, h.ivPadded, fun h0 => hno h0, h.subkeys, fun i hi h16 => ?_,
      fun h0 => ?_, h.statusRange⟩
    · simp only [Bytes.set_data] at hi ⊢
      rw [List.getElem?_set_ne (by omega)]
      exact h.bufPadded i (by omega) h16
    · have := congrArg Fin.val h0
      simp only [hv] at this
      simp at this

/-- Feeding a payload keeps the invariant (42_cmac_engine.md R174). -/
theorem Regs.Inv.absorb (h : r.Inv c) (hc : r.cinit = true) (p : ByteString) :
    ((absorb r p).run c).Inv c := by
  induction p generalizing r with
  | nil => exact h
  | cons b p ih =>
    rw [absorb_cons_run]
    exact ih (h.absorbByte hc b) (by simpa using hc)

/-! ## Answers fit the length field -/

/-- A decoded command's payload fits the length field (30_encoding.md R70). -/
theorem payload_le_of_decode {f : ByteString} {i : Instr} (h : decode f = .ok i) :
    i.payload.length ≤ Config.maxPayload := by
  rcases decode_cases f with ⟨_, he⟩ | ⟨op, arg, hi, lo, p, rfl, hl, hd⟩
  · rw [he] at h; cases h
  · rw [hd] at h
    rw [(decodeCommand_ok h).2.2.1, hl]
    exact lenField_le _ _

/-- Everything `finish` can do with a result whose data fits. -/
theorem finish_fits (s : State) {res : Result}
    (h : ∀ r d, res = .ok (r, d) → d.length ≤ Config.maxPayload) :
    (∃ e, s.finish res = .next (s.raise e)) ∨
      ∃ r d, d.length ≤ Config.maxPayload ∧ s.finish res = .next (s.reply r d) := by
  cases res with
  | error e => exact .inl ⟨e, rfl⟩
  | ok rd => exact .inr ⟨rd.1, rd.2, h _ _ rfl, rfl⟩

/-- The blocks CBC.OUT returns are as long together as its payload. -/
theorem cbcOutBlocks_flatten_length (r : Regs) {p : ByteString}
    (h : isWholeBlocks r.blockSize p = true) :
    ((cbcOutBlocks r (payloadBlocks r.blockSize p)).run Config.params).flatten.length = p.length := by
  obtain ⟨n, hn⟩ := Nat.dvd_of_mod_eq_zero (isWholeBlocks_iff.1 h).2
  rw [Nat.mul_comm] at hn
  have hl : ∀ b ∈ (cbcOutBlocks r (payloadBlocks r.blockSize p)).run Config.params,
      b.length = r.blockSize := by
    rw [cbcOutBlocks_run]
    exact length_of_mem_chainOut (by intro b; split <;> simp [Regs.blockSize]) _ _
  rw [flatten_length hl, cbcOutBlocks_run, chainOut_length,
    payloadBlocks_eq (bs := r.blockSize) (bs_pos _) hn, blocks_length, hn]

/-- The blocks CBC.IN returns are as long together as its payload. -/
theorem cbcInBlocks_flatten_length (r : Regs) {p : ByteString}
    (h : isWholeBlocks r.blockSize p = true) :
    ((cbcInBlocks .prevCiphered r (payloadBlocks r.blockSize p)).run Config.params).flatten.length = p.length := by
  obtain ⟨n, hn⟩ := Nat.dvd_of_mod_eq_zero (isWholeBlocks_iff.1 h).2
  rw [Nat.mul_comm] at hn
  rw [payloadBlocks_eq (bs := r.blockSize) (bs_pos _) hn, cbcInBlocks_run]
  rw [flatten_length (length_of_mem_chainIn (n := r.blockSize) (by simp [Regs.blockSize])
    (by simp [Regs.blockSize]) (length_of_mem_blocks hn)), chainIn_length, blocks_length, hn]

/-- A command whose payload fits the length field ends in an error, or answers data that fits it. -/
theorem exec_fits (i : Instr) (hp : i.payload.length ≤ Config.maxPayload) (s : State) :
    (∃ e, exec i s = .next (s.raise e)) ∨
      ∃ r d, d.length ≤ Config.maxPayload ∧ exec i s = .next (s.reply r d) := by
  have hbs := bs_le s.regs.fam
  simp only [Config.maxPayload] at hp
  cases i
  all_goals
    simp only [exec, execZeroize, execStat, execKeyLoad, execKeyClear, execEcbEnc, ecbEncWith,
      execEcbDec, ecbDecWith, execIvZero, execIvLoad, execIvGet, execCbcOut, cbcOutWith, execCbcIn,
      cbcInWith, execCmacInit, cmacInitWith, execCmacUpdate, cmacUpdateWith, execCmacFinal,
      cmacFinalWith, execSkdDerive, execRotl1, execKeyPrep, ecbEncProg_run,
      ecbDecProg_run, cbcOutProg_run, cbcInProg_run, cmacInitProg_run, cmacUpdateProg_run,
      cmacFinalProg_run, Instr.payload] at hp ⊢
    refine finish_fits s fun r d h => ?_
    simp only [Config.maxPayload]
  case cbcOut p =>
    split_ifs at h with _ hw
    cases h
    rw [cbcOutBlocks_flatten_length s.regs (by simpa using hw)]; exact hp
  case cbcIn p =>
    split_ifs at h with _ hw
    cases h
    rw [params_lrecvChain, cbcInBlocks_flatten_length s.regs (by simpa using hw)]; exact hp
  case skdDerive f p => split_ifs at h; cases h; cases f <;> simp [sessionKey] <;> omega
  case keyPrep f p => split_ifs at h; cases h; cases f <;> simp [preparedKey] <;> omega
  case rotl1 p => split_ifs at h; cases h; simp [rotateLeftOne]; omega
  case cmacFinal n p => split_ifs at h; cases h; simp [Config.bs]
  all_goals
    split_ifs at h
    cases h
    first
    | (simp [statusReport]; done)
    | (simp; omega)

end Sys2Proof.Machine
end

