-- ==== Sys2Proof/Laws/PerInstr.lean ====
section
/-! SUPPORT. Per-instruction family FrameHeader: the frame of each command starts with one of the seventeen
opcodes and is four bytes longer than its payload (30_encoding.md R70, R73). -/

namespace Sys2Proof.Laws.FrameHeader

/-- The frame's first byte is the command's opcode, a legal one, and its length is the payload's plus 4. -/
def Statement (i : Instr) : Prop :=
  (encode i).head? = some (opcode i) ∧ opcode i ∈ Machine.legalOpcodes ∧
    (encode i).length = 4 + i.payload.length

/-- The length half holds of every command for one reason. -/
theorem encode_length (i : Instr) : (encode i).length = 4 + i.payload.length := by
  simp [encode, commandFrame]; omega

theorem zeroize (p : ByteString) : Statement (.zeroize p) := ⟨rfl, by simp [opcode, Machine.legalOpcodes], encode_length _⟩
theorem stat (p : ByteString) : Statement (.stat p) := ⟨rfl, by simp [opcode, Machine.legalOpcodes], encode_length _⟩
theorem keyLoad (f : Family) (p : ByteString) : Statement (.keyLoad f p) := ⟨rfl, by simp [opcode, Machine.legalOpcodes], encode_length _⟩
theorem keyClear (p : ByteString) : Statement (.keyClear p) := ⟨rfl, by simp [opcode, Machine.legalOpcodes], encode_length _⟩
theorem ecbEnc (p : ByteString) : Statement (.ecbEnc p) := ⟨rfl, by simp [opcode, Machine.legalOpcodes], encode_length _⟩
theorem ecbDec (p : ByteString) : Statement (.ecbDec p) := ⟨rfl, by simp [opcode, Machine.legalOpcodes], encode_length _⟩
theorem ivZero (p : ByteString) : Statement (.ivZero p) := ⟨rfl, by simp [opcode, Machine.legalOpcodes], encode_length _⟩
theorem ivLoad (p : ByteString) : Statement (.ivLoad p) := ⟨rfl, by simp [opcode, Machine.legalOpcodes], encode_length _⟩
theorem ivGet (p : ByteString) : Statement (.ivGet p) := ⟨rfl, by simp [opcode, Machine.legalOpcodes], encode_length _⟩
theorem cbcOut (p : ByteString) : Statement (.cbcOut p) := ⟨rfl, by simp [opcode, Machine.legalOpcodes], encode_length _⟩
theorem cbcIn (p : ByteString) : Statement (.cbcIn p) := ⟨rfl, by simp [opcode, Machine.legalOpcodes], encode_length _⟩
theorem cmacInit (t : Byte) (p : ByteString) : Statement (.cmacInit t p) := ⟨rfl, by simp [opcode, Machine.legalOpcodes], encode_length _⟩
theorem cmacUpdate (p : ByteString) : Statement (.cmacUpdate p) := ⟨rfl, by simp [opcode, Machine.legalOpcodes], encode_length _⟩
theorem cmacFinal (n : Byte) (p : ByteString) : Statement (.cmacFinal n p) := ⟨rfl, by simp [opcode, Machine.legalOpcodes], encode_length _⟩
theorem skdDerive (f : Family) (p : ByteString) : Statement (.skdDerive f p) := ⟨rfl, by simp [opcode, Machine.legalOpcodes], encode_length _⟩
theorem rotl1 (p : ByteString) : Statement (.rotl1 p) := ⟨rfl, by simp [opcode, Machine.legalOpcodes], encode_length _⟩
theorem keyPrep (f : Family) (p : ByteString) : Statement (.keyPrep f p) := ⟨rfl, by simp [opcode, Machine.legalOpcodes], encode_length _⟩

end Sys2Proof.Laws.FrameHeader
end

