-- ==== Sys2Proof/Machine/Asm.lean ====
section
/-! DEFINITION. The assembler syntax and the pseudo-commands (30_encoding.md R78). A notation for
commands; the machine does not use it. -/

namespace Sys2Proof.Machine

/-- The mnemonic of a command (30_encoding.md R73). -/
def mnemonic : Instr → String
  | .zeroize _ => "ZEROIZE"
  | .stat _ => "STAT"
  | .keyLoad _ _ => "KEY.LOAD"
  | .keyClear _ => "KEY.CLEAR"
  | .ecbEnc _ => "ECB.ENC"
  | .ecbDec _ => "ECB.DEC"
  | .ivZero _ => "IV.ZERO"
  | .ivLoad _ => "IV.LOAD"
  | .ivGet _ => "IV.GET"
  | .cbcOut _ => "CBC.OUT"
  | .cbcIn _ => "CBC.IN"
  | .cmacInit _ _ => "CMAC.INIT"
  | .cmacUpdate _ => "CMAC.UPDATE"
  | .cmacFinal _ _ => "CMAC.FINAL"
  | .skdDerive _ _ => "SKD.DERIVE"
  | .rotl1 _ => "ROTL1"
  | .keyPrep _ _ => "KEY.PREP"

/-- The short name of a family (00_scope.md R6). -/
def familyName : Family → String
  | .des => "DES"
  | .tdes2 => "TDES2"
  | .tdes3 => "TDES3"
  | .aes => "AES"

/-- The argument as it is written: a family short name, a decimal MAC length, or nothing where `ARG` is
of kind zero. A tag of CMAC.INIT that is no family code has no spelling in R78. -/
def argText : Instr → Option String
  | .keyLoad f _ => some (" " ++ familyName f)
  | .skdDerive f _ => some (" " ++ familyName f)
  | .keyPrep f _ => some (" " ++ familyName f)
  | .cmacInit t _ => (familyOfCode t).map fun f => " " ++ familyName f
  | .cmacFinal n _ => some (" " ++ toString n.toNat)
  | .zeroize _ => some ""
  | .stat _ => some ""
  | .keyClear _ => some ""
  | .ecbEnc _ => some ""
  | .ecbDec _ => some ""
  | .ivZero _ => some ""
  | .ivLoad _ => some ""
  | .ivGet _ => some ""
  | .cbcOut _ => some ""
  | .cbcIn _ => some ""
  | .cmacUpdate _ => some ""
  | .rotl1 _ => some ""

/-- One hexadecimal digit. -/
def hexDigit (n : Nat) : Char := (['0', '1', '2', '3', '4', '5', '6', '7'] ++
  ['8', '9', 'a', 'b', 'c', 'd', 'e', 'f']).getD n '0'

/-- A byte string in hexadecimal, first byte first (00_scope.md R7). -/
def hexText (b : ByteString) : String :=
  String.ofList (b.flatMap fun x => [hexDigit (x.toNat / 16), hexDigit (x.toNat % 16)])

/-- A command as one line of text: `MNEMONIC [arg] [payload]` (30_encoding.md R78). -/
def asmText (i : Instr) : Option String :=
  (argText i).map fun a =>
    mnemonic i ++ a ++ (if i.payload = [] then "" else " " ++ hexText i.payload)

/-- The pseudo-command `CMAC.MAC key N msg` (30_encoding.md R78). -/
def pseudoCmacMac (key : ByteString) (n : Byte) (msg : ByteString) : List Instr :=
  [.cmacInit (familyCode .aes) key, .cmacUpdate msg, .cmacFinal n []]

/-- The pseudo-command `CBC.OUT.Z data` (30_encoding.md R78). -/
def pseudoCbcOutZ (data : ByteString) : List Instr := [.ivZero [], .cbcOut data]

/-- The pseudo-command `CBC.IN.Z data` (30_encoding.md R78). -/
def pseudoCbcInZ (data : ByteString) : List Instr := [.ivZero [], .cbcIn data]

end Sys2Proof.Machine
end

