-- ==== Sys2Proof/Machine/Intended.lean ====
section
/-! DEFINITION. The intended instantiation of the block ciphers (40_block_cipher_adapter.md R103), all of
it from general knowledge: AES-128 (FIPS 197), DES (FIPS 46-3), and the triple-DES compositions. The
machine's step does not use it: its cipher is the uninterpreted `Config.blockCipher` (R10, D11). It is
here so that the spec's concrete vectors can be checked. PRESUMED: log entry 14. -/

namespace Sys2Proof.Machine.Intended

/-! ## AES-128 -/

/-- The substitution table of AES, one row of 16 bytes a number, first byte most significant. -/
def sboxRows : List Nat :=
  [0x637c777bf26b6fc53001672bfed7ab76,
   0xca82c97dfa5947f0add4a2af9ca472c0,
   0xb7fd9326363ff7cc34a5e5f171d83115,
   0x04c723c31896059a071280e2eb27b275,
   0x09832c1a1b6e5aa0523bd6b329e32f84,
   0x53d100ed20fcb15b6acbbe394a4c58cf,
   0xd0efaafb434d338545f9027f503c9fa8,
   0x51a3408f929d38f5bcb6da2110fff3d2,
   0xcd0c13ec5f974417c4a77e3d645d1973,
   0x60814fdc222a908846eeb814de5e0bdb,
   0xe0323a0a4906245cc2d3ac629195e479,
   0xe7c8376d8dd54ea96c56f4ea657aae08,
   0xba78252e1ca6b4c6e8dd741f4bbd8b8a,
   0x703eb5664803f60e613557b986c11d9e,
   0xe1f8981169d98e949b1e87e9ce5528df,
   0x8ca1890dbfe6426841992d0fb054bb16]

/-- The inverse substitution table of AES, in the same layout. -/
def invSboxRows : List Nat :=
  [0x52096ad53036a538bf40a39e81f3d7fb,
   0x7ce339829b2fff87348e4344c4dee9cb,
   0x547b9432a6c2233dee4c950b42fac34e,
   0x082ea16628d924b2765ba2496d8bd125,
   0x72f8f66486689816d4a45ccc5d65b692,
   0x6c704850fdedb9da5e154657a78d9d84,
   0x90d8ab008cbcd30af7e45805b8b34506,
   0xd02c1e8fca3f0f02c1afbd0301138a6b,
   0x3a9111414f67dcea97f2cfcef0b4e673,
   0x96ac7422e7ad3585e2f937e81c75df6e,
   0x47f11a711d29c5896fb7620eaa18be1b,
   0xfc563e4bc6d279209adbc0fe78cd5af4,
   0x1fdda8338807c731b11210592780ec5f,
   0x60517fa919b54a0d2de57a9f93c99cef,
   0xa0e03b4dae2af5b0c8ebbb3c83539961,
   0x172b047eba77d626e169146355210c7d]

/-- Look a byte up in a table of 16 rows of 16 bytes. -/
def lookup (rows : List Nat) (b : Byte) : Byte :=
  BitVec.ofNat 8 (rows.getD (b.toNat / 16) 0 >>> (8 * (15 - b.toNat % 16)))

/-- Multiplication by `x` in the field of AES. -/
def xtime (b : Byte) : Byte := if 128 ≤ b.toNat then (b <<< 1) ^^^ 0x1b else b <<< 1

/-- Multiplication by a small constant, given by its four low bits. -/
def times (k : Nat) (b : Byte) : Byte :=
  let b2 := xtime b
  let b4 := xtime b2
  let b8 := xtime b4
  (if k.testBit 0 then b else 0) ^^^ (if k.testBit 1 then b2 else 0) ^^^
    (if k.testBit 2 then b4 else 0) ^^^ (if k.testBit 3 then b8 else 0)

/-- One output byte of the column mixing. -/
def mixByte (k : Nat × Nat × Nat × Nat) (a b c d : Byte) : Byte :=
  times k.1 a ^^^ times k.2.1 b ^^^ times k.2.2.1 c ^^^ times k.2.2.2 d

/-- Multiply every column of the state by the circulant matrix with first row `(k0, k1, k2, k3)`. -/
def mixColumns (k0 k1 k2 k3 : Nat) : ByteString → ByteString
  | a :: b :: c :: d :: r =>
    mixByte (k0, k1, k2, k3) a b c d :: mixByte (k3, k0, k1, k2) a b c d ::
      mixByte (k2, k3, k0, k1) a b c d :: mixByte (k1, k2, k3, k0) a b c d ::
      mixColumns k0 k1 k2 k3 r
  | _ => []

/-- Rearrange the state: output byte `i` is input byte `idx[i]`. -/
def rearrange (idx : List Nat) (b : ByteString) : ByteString := idx.map (b.getD · 0)

def shiftRowsIdx : List Nat := [0, 5, 10, 15, 4, 9, 14, 3, 8, 13, 2, 7, 12, 1, 6, 11]
def invShiftRowsIdx : List Nat := [0, 13, 10, 7, 4, 1, 14, 11, 8, 5, 2, 15, 12, 9, 6, 3]

/-- The next round key from the last one. -/
def nextRoundKey (rcon : Byte) (k : ByteString) : ByteString :=
  let t := rearrange [13, 14, 15, 12] k |>.map (lookup sboxRows)
  let w0 := xorBytes (xorBytes (slice 0 4 k) t) [rcon, 0, 0, 0]
  let w1 := xorBytes (slice 4 8 k) w0
  let w2 := xorBytes (slice 8 12 k) w1
  let w3 := xorBytes (slice 12 16 k) w2
  w0 ++ w1 ++ w2 ++ w3

/-- The round keys that follow a round key, for the given round constants. -/
def roundKeysFrom : List Byte → ByteString → List ByteString
  | [], _ => []
  | rcon :: rs, k =>
    let k' := nextRoundKey rcon k
    k' :: roundKeysFrom rs k'

/-- The ten round keys after the cipher key itself. -/
def roundKeys (key : ByteString) : List ByteString :=
  roundKeysFrom [0x01, 0x02, 0x04, 0x08, 0x10, 0x20, 0x40, 0x80, 0x1b, 0x36] key

/-- The rounds of the cipher; the last one does not mix the columns. -/
def aesRounds : List ByteString → ByteString → ByteString
  | [], b => b
  | [k], b => xorBytes (rearrange shiftRowsIdx (b.map (lookup sboxRows))) k
  | k :: ks, b =>
    aesRounds ks
      (xorBytes (mixColumns 2 3 1 1 (rearrange shiftRowsIdx (b.map (lookup sboxRows)))) k)

/-- The rounds of the inverse cipher, over the round keys last first. -/
def aesInvRounds : List ByteString → ByteString → ByteString
  | [], b => b
  | [k], b => xorBytes ((rearrange invShiftRowsIdx b).map (lookup invSboxRows)) k
  | k :: ks, b =>
    aesInvRounds ks
      (mixColumns 14 11 13 9
        (xorBytes ((rearrange invShiftRowsIdx b).map (lookup invSboxRows)) k))

/-- AES-128 encryption of one block (R103 (a)). -/
def aesEnc (key b : ByteString) : ByteString := aesRounds (roundKeys key) (xorBytes b key)

/-- AES-128 decryption of one block (R103 (a)). -/
def aesDec (key b : ByteString) : ByteString :=
  match (roundKeys key).reverse with
  | [] => b
  | k :: ks => aesInvRounds (ks ++ [key]) (xorBytes b k)

/-! ## DES -/

/-- The number of a byte string, byte 0 most significant. -/
def toNumber (b : ByteString) : Nat := b.foldl (fun a x => 256 * a + x.toNat) 0

/-- The 8 bytes of a number, most significant first. -/
def toBlock (v : Nat) : ByteString := (bytesUp 8 v).reverse

/-- Select bits of an `n`-bit number, bit 1 being the most significant, as the standard counts. -/
def permute (n : Nat) (table : List Nat) (v : Nat) : Nat :=
  table.foldl (fun a t => 2 * a + (v >>> (n - t)) % 2) 0

def ip : List Nat :=
  [58, 50, 42, 34, 26, 18, 10, 2] ++
  [60, 52, 44, 36, 28, 20, 12, 4] ++
  [62, 54, 46, 38, 30, 22, 14, 6] ++
  [64, 56, 48, 40, 32, 24, 16, 8] ++
  [57, 49, 41, 33, 25, 17, 9, 1] ++
  [59, 51, 43, 35, 27, 19, 11, 3] ++
  [61, 53, 45, 37, 29, 21, 13, 5] ++
  [63, 55, 47, 39, 31, 23, 15, 7]

def fp : List Nat :=
  [40, 8, 48, 16, 56, 24, 64, 32] ++
  [39, 7, 47, 15, 55, 23, 63, 31] ++
  [38, 6, 46, 14, 54, 22, 62, 30] ++
  [37, 5, 45, 13, 53, 21, 61, 29] ++
  [36, 4, 44, 12, 52, 20, 60, 28] ++
  [35, 3, 43, 11, 51, 19, 59, 27] ++
  [34, 2, 42, 10, 50, 18, 58, 26] ++
  [33, 1, 41, 9, 49, 17, 57, 25]

def expansion : List Nat :=
  [32, 1, 2, 3, 4, 5] ++
  [4, 5, 6, 7, 8, 9] ++
  [8, 9, 10, 11, 12, 13] ++
  [12, 13, 14, 15, 16, 17] ++
  [16, 17, 18, 19, 20, 21] ++
  [20, 21, 22, 23, 24, 25] ++
  [24, 25, 26, 27, 28, 29] ++
  [28, 29, 30, 31, 32, 1]

def roundPermutation : List Nat :=
  [16, 7, 20, 21, 29, 12, 28, 17] ++
  [1, 15, 23, 26, 5, 18, 31, 10] ++
  [2, 8, 24, 14, 32, 27, 3, 9] ++
  [19, 13, 30, 6, 22, 11, 4, 25]

def pc1 : List Nat :=
  [57, 49, 41, 33, 25, 17, 9] ++
  [1, 58, 50, 42, 34, 26, 18] ++
  [10, 2, 59, 51, 43, 35, 27] ++
  [19, 11, 3, 60, 52, 44, 36] ++
  [63, 55, 47, 39, 31, 23, 15] ++
  [7, 62, 54, 46, 38, 30, 22] ++
  [14, 6, 61, 53, 45, 37, 29] ++
  [21, 13, 5, 28, 20, 12, 4]

def pc2 : List Nat :=
  [14, 17, 11, 24, 1, 5] ++
  [3, 28, 15, 6, 21, 10] ++
  [23, 19, 12, 4, 26, 8] ++
  [16, 7, 27, 20, 13, 2] ++
  [41, 52, 31, 37, 47, 55] ++
  [30, 40, 51, 45, 33, 48] ++
  [44, 49, 39, 56, 34, 53] ++
  [46, 42, 50, 36, 29, 32]

/-- The eight substitution boxes: four rows each, 16 four-bit entries a row, first most significant. -/
def sboxes : List (List Nat) :=
  [[0xe4d12fb83a6c5907, 0x0f74e2d1a6cb9538, 0x41e8d62bfc973a50, 0xfc8249175b3ea06d],
   [0xf18e6b34972dc05a, 0x3d47f28ec01a69b5, 0x0e7ba4d158c6932f, 0xd8a13f42b67c05e9],
   [0xa09e63f51dc7b428, 0xd709346a285ecbf1, 0xd6498f30b12c5ae7, 0x1ad069874fe3b52c],
   [0x7de3069a1285bc4f, 0xd8b56f03472c1ae9, 0xa690cb7df13e5284, 0x3f06a1d8945bc72e],
   [0x2c417ab6853fd0e9, 0xeb2c47d150fa3986, 0x421bad78f9c5630e, 0xb8c71e2d6f09a453],
   [0xc1af92680d34e75b, 0xaf427c9561de0b38, 0x9ef528c3704a1db6, 0x432c95fabe17608d],
   [0x4b2ef08d3c975a61, 0xd0b7491ae35c2f86, 0x14bdc37eaf680592, 0x6bd814a7950fe23c],
   [0xd2846fb1a93e50c7, 0x1fd8a374c56b0e92, 0x7b419ce206adf358, 0x21e74a8dfc90356b]]

/-- Substitute one group of six bits. -/
def substitute (rows : List Nat) (g : Nat) : Nat :=
  (rows.getD (2 * (g / 32) + g % 2) 0 >>> (4 * (15 - (g / 2) % 16))) % 16

/-- Substitute the groups of a 48-bit number, the most significant group by the first box. -/
def substituteAll : List (List Nat) → Nat → Nat
  | [], _ => 0
  | rows :: bs, v => substitute rows ((v >>> (6 * bs.length)) % 64) * 16 ^ bs.length + substituteAll bs v

/-- The round function. -/
def roundFunction (k r : Nat) : Nat :=
  permute 32 roundPermutation (substituteAll sboxes (permute 32 expansion r ^^^ k))

/-- Rotate a 28-bit number left. -/
def rotate28 (n v : Nat) : Nat := ((v <<< n) ||| (v >>> (28 - n))) % 2 ^ 28

/-- The round keys, for the rotations still to make. -/
def desKeysFrom : List Nat → Nat → Nat → List Nat
  | [], _, _ => []
  | n :: ns, c, d =>
    let c' := rotate28 n c
    let d' := rotate28 n d
    permute 56 pc2 (c' * 2 ^ 28 + d') :: desKeysFrom ns c' d'

/-- The sixteen round keys of DES. -/
def desKeys (key : ByteString) : List Nat :=
  let v := permute 64 pc1 (toNumber key)
  desKeysFrom [1, 1, 2, 2, 2, 2, 2, 2, 1, 2, 2, 2, 2, 2, 2, 1] (v / 2 ^ 28) (v % 2 ^ 28)

/-- The sixteen rounds, ending with the halves exchanged. -/
def desRounds : List Nat → Nat → Nat → Nat
  | [], l, r => r * 2 ^ 32 + l
  | k :: ks, l, r => desRounds ks r (l ^^^ roundFunction k r)

/-- DES over the given round keys. -/
def desWith (keys : List Nat) (b : ByteString) : ByteString :=
  let v := permute 64 ip (toNumber b)
  toBlock (permute 64 fp (desRounds keys (v / 2 ^ 32) (v % 2 ^ 32)))

/-- DES encryption of one block (R103 (b)). -/
def desEnc (key b : ByteString) : ByteString := desWith (desKeys key) b

/-- DES decryption of one block (R103 (b)). -/
def desDec (key b : ByteString) : ByteString := desWith (desKeys key).reverse b

/-! ## The four families -/

/-- `BCE` of the intended instantiation (R103). -/
def enc (f : Family) (key b : ByteString) : ByteString :=
  match f with
  | .aes => aesEnc key b
  | .des => desEnc key b
  | .tdes2 => desEnc (slice 0 8 key) (desDec (slice 8 16 key) (desEnc (slice 0 8 key) b))
  | .tdes3 => desEnc (slice 16 24 key) (desDec (slice 8 16 key) (desEnc (slice 0 8 key) b))

/-- `BCD` of the intended instantiation (R103). -/
def dec (f : Family) (key b : ByteString) : ByteString :=
  match f with
  | .aes => aesDec key b
  | .des => desDec key b
  | .tdes2 => desDec (slice 0 8 key) (desEnc (slice 8 16 key) (desDec (slice 0 8 key) b))
  | .tdes3 => desDec (slice 0 8 key) (desEnc (slice 8 16 key) (desDec (slice 16 24 key) b))

/-- The parameters with the intended instantiation and the spec's other values. -/
def params : Config.Params where
  enc := enc
  dec := dec
  lrecvChain := .prevCiphered
  cmacDefaultN := 16

end Sys2Proof.Machine.Intended
end

