-- ==== Sys2Proof/Tests/Slice0.lean ====
section
/-! SUPPORT. Tests. Expected values come from spec/95_test_vectors.md (vector names in the comments), or are
worked out by hand from the rule named. The last part gives, for each obligation that has hypotheses,
a concrete state and operands that meet them. -/

namespace Sys2Proof.Tests

open Sys2Proof.Machine

/-! ## Helpers -/

/-- `n` bytes written as one number, first byte most significant. -/
def hx (n v : Nat) : ByteString := (bytesUp n v).reverse

/-- The reset state with a key loaded. -/
def keyed (f : Family) (key : ByteString) : State :=
  { State.reset with
    regs := { Regs.reset with keyv := true, fam := f, key := Bytes.ofList 24 key } }

/-- A state with the chaining value `v`. -/
def withIv (s : State) (v : ByteString) : State :=
  { s with regs := { s.regs with iv := Bytes.ofList 16 v } }

/-- The reset state with a CMAC key installed. -/
def cmacReady (c : Config.Params) (key : ByteString) : State :=
  { State.reset with regs := (Regs.reset.installCmacKey (Bytes.ofList 16 key)).run c }

/-- The next state of an outcome. -/
def after : Host.Outcome State Fault Refusal → State
  | .next s => s
  | .fault r => nomatch r
  | .refused _ => State.reset

/-- The last response of an outcome. -/
def answer (o : Host.Outcome State Fault Refusal) : ByteString := (after o).responses.getLastD []

/-- The response to a byte string presented in state `s`. -/
def present (s : State) (f : ByteString) : ByteString := answer (step (s.presenting f))

/-- The toy cipher of 95_test_vectors.md section 2.8, adding the key, or taking it away. -/
def toyEnc (_ : Family) (k b : ByteString) : ByteString :=
  (List.range b.length).map fun i => b.getD i 0 + k.getD (i % k.length) 0 + 1

def toyDec (_ : Family) (k b : ByteString) : ByteString :=
  (List.range b.length).map fun i => b.getD i 0 - k.getD (i % k.length) 0 - 1

def toy : Config.Params where
  enc := toyEnc
  dec := toyDec
  lrecvChain := .prevCiphered
  cmacDefaultN := 16

/-- The key of Y1 to Y3 loaded. -/
def toyDes : State := keyed .des (hx 8 0x0102030405060708)

/-- The AES key of K4, E1 and program P2. -/
def key16 : ByteString := hx 16 0x000102030405060708090a0b0c0d0e0f

/-! ## WellFormed refuses what is not a command -/

/-- 30_encoding.md R74 (d): a MAC length above 16. -/
theorem test_wf_refuses_mac_length_17 : (Instr.cmacFinal 17 []).wf = false := by decide

/-- 30_encoding.md R74 (d): 16 is the last MAC length. -/
theorem test_wf_admits_mac_length_16 : (Instr.cmacFinal 16 []).wf = true := by decide

/-- 30_encoding.md R70: a payload longer than `LEN` can say, from 65536 bytes on. -/
theorem test_wf_refuses_long_payload {n : Nat} (h : 65535 < n) :
    (Instr.rotl1 (zeros n)).wf = false := by
  simp [Instr.wf, Instr.argOk, Instr.payloadOk, Instr.payload, Config.maxPayload, h]

/-! ## Decoding words written out from 30_encoding.md R70, R73, R74 -/

/-- One frame of each of the seventeen commands. -/
theorem test_decode_system :
    decode (hx 4 0x01000000) = .ok (.zeroize []) ∧
    decode (hx 5 0x0200000100) = .ok (.stat [0x00]) := by decide

theorem test_decode_adapter :
    decode (hx 12 0x10000008133457799bbcdff1) = .ok (.keyLoad .des (hx 8 0x133457799bbcdff1)) ∧
    decode (hx 4 0x10030000) = .ok (.keyLoad .aes []) ∧
    decode (hx 4 0x11000000) = .ok (.keyClear []) ∧
    decode (hx 12 0x120000080123456789abcdef) = .ok (.ecbEnc (hx 8 0x0123456789abcdef)) ∧
    decode (hx 12 0x1300000885e813540f0ab405) = .ok (.ecbDec (hx 8 0x85e813540f0ab405)) := by
  decide

theorem test_decode_cbc :
    decode (hx 4 0x20000000) = .ok (.ivZero []) ∧
    decode (hx 12 0x210000081122334455667788) = .ok (.ivLoad (hx 8 0x1122334455667788)) ∧
    decode (hx 4 0x22000000) = .ok (.ivGet []) ∧
    decode (hx 12 0x240000080123456789abcdef) = .ok (.cbcOut (hx 8 0x0123456789abcdef)) ∧
    decode (hx 12 0x250000084831ba5d63143df3) = .ok (.cbcIn (hx 8 0x4831ba5d63143df3)) := by
  decide

theorem test_decode_cmac :
    decode (hx 6 0x30ff00020102) = .ok (.cmacInit 0xff [0x01, 0x02]) ∧
    decode (hx 6 0x310000026162) = .ok (.cmacUpdate [0x61, 0x62]) ∧
    decode (hx 4 0x32100000) = .ok (.cmacFinal 16 []) := by decide

theorem test_decode_session_key :
    decode (hx 6 0x400200020102) = .ok (.skdDerive .tdes3 [0x01, 0x02]) ∧
    decode (hx 7 0x41000003010203) = .ok (.rotl1 [0x01, 0x02, 0x03]) ∧
    decode (hx 12 0x42000008133457799bbcdff1) = .ok (.keyPrep .des (hx 8 0x133457799bbcdff1)) := by
  decide

/-- F1 to F4, F6 to F9, F12, K9: malformed frames, illegal opcodes, reserved arguments. -/
theorem test_decode_rejects :
    decode [] = .error .badFrame ∧
    decode (hx 2 0x1003) = .error .badFrame ∧
    decode (hx 5 0x1003000f00) = .error .badFrame ∧
    decode (hx 5 0x0100000000) = .error .badFrame ∧
    decode (hx 4 0x00000000) = .error .badOpcode ∧
    decode (hx 5 0xff01000100) = .error .badOpcode ∧
    decode (hx 4 0x23000000) = .error .badOpcode ∧
    decode (hx 4 0x01010000) = .error .badArg ∧
    decode (hx 4 0x32110000) = .error .badArg ∧
    decode (hx 20 0x1004001000000000000000000000000000000000) = .error .badArg := by decide

/-- 30_encoding.md R70: `LEN` is most significant byte first, so 0x0100 asks for 256 bytes. -/
theorem test_len_big_endian :
    decode (hx 5 0x31000100ff) = .error .badFrame ∧
    decode (hx 5 0x31000001ff) = .ok (.cmacUpdate [0xff]) := by decide

/-- The header word of the opcode table, frame byte 0 most significant; a payload of zeros as `LEN` says;
a payload bit of a wider word; a refused word. -/
theorem test_decodeTableWord :
    decodeTableWord 32 0x32080000 = some (.cmacFinal 8 []) ∧
    decodeTableWord 32 0x10030010 = some (.keyLoad .aes (zeros 16)) ∧
    decodeTableWord 40 0xab31000001 = some (.cmacUpdate [0xab]) ∧
    decodeTableWord 32 0x23000000 = none := by decide

/-- 30_encoding.md R78, its two examples. -/
theorem test_asm_text :
    asmText (.keyLoad .aes (hx 16 0x2b7e151628aed2a6abf7158809cf4f3c)) =
      some "KEY.LOAD AES 2b7e151628aed2a6abf7158809cf4f3c" ∧
    asmText (.cmacFinal 8 []) = some "CMAC.FINAL 8" := by decide

/-! ## One step -/

/-- F1, F4, F5, F6, F9 to F13: the order of the checks, from reset. -/
theorem test_error_order :
    present State.reset [] = hx 3 0x070000 ∧
    present State.reset (hx 5 0x0100000000) = hx 3 0x070000 ∧
    present State.reset (hx 5 0x0100000100) = hx 3 0x020000 ∧
    present State.reset (hx 4 0x00000000) = hx 3 0x060000 ∧
    present State.reset (hx 4 0x01010000) = hx 3 0x050000 ∧
    present State.reset (hx 7 0x12010003000000) = hx 3 0x050000 ∧
    present State.reset (hx 7 0x12000003000000) = hx 3 0x030000 ∧
    present State.reset (hx 4 0x32110000) = hx 3 0x050000 ∧
    present State.reset (hx 5 0x3208000100) = hx 3 0x040000 := by decide

/-- 60_exceptions.md R263: an error writes `LERR` and no other register (P4, step 22). -/
theorem test_error_writes_lerr :
    let s := withIv toyDes (hx 8 0x1122334455667788)
    (after (step (s.presenting ([0x24, 0x00, 0x00, 0x0f] ++ zeros 15)))).regs =
      { s.regs with lerr := 0x02 } := by decide

/-- 70_reset_and_hazards.md R300: a reset clears `LERR` and returns no response (P4, after step 24). -/
theorem test_reset_move :
    step { State.reset with
        regs := { toyDes.regs with lerr := 0x02 }
        pending := [.reset, .frame [0x02, 0x00, 0x00, 0x00]] } =
      .next { State.reset with pending := [.frame [0x02, 0x00, 0x00, 0x00]] } := rfl

/-- Q1: after `withFetchWord` the next step runs the word. -/
theorem test_withFetchWord :
    step (State.reset.withFetchWord 32 0x02000000) =
      .next { State.reset with responses := [hx 7 0x00000400000000] } := rfl

/-- Two moves run in the order presented (20_memory.md R57): F6, then STAT shows its status. -/
theorem test_run_in_order :
    answer (Sys2Proof.core.run 2 { State.reset with
      pending := [.frame [0x00, 0x00, 0x00, 0x00], .frame [0x02, 0x00, 0x00, 0x00]] }) =
      hx 7 0x00000400000006 := by decide

/-! ## System commands -/

/-- A state with every register of both units in use. -/
def busy : State :=
  let s := cmacReady toy (zeros 16)
  { s with regs := { s.regs with
      keyv := true, fam := .tdes3, key := Bytes.ofList 24 (hx 24 1), iv := Bytes.ofList 16 [0x11]
      buf := Bytes.ofList 16 (hx 16 1), blen := 16, x := Bytes.ofList 16 (hx 16 2), lerr := 0x06 } }

/-- Q7, P4 step 23: ZEROIZE keeps `LERR` and clears the rest. -/
theorem test_zeroize_keeps_lerr :
    (after (exec (.zeroize []) busy)).regs = { Regs.reset with lerr := 0x06 } ∧
    answer (exec (.zeroize []) busy) = hx 3 0x000000 := by decide

/-- P4 step 18: with a payload nothing is cleared. -/
theorem test_zeroize_with_payload :
    (after (exec (.zeroize [0x00]) busy)).regs = { busy.regs with lerr := 0x02 } := by decide

/-- Q5. -/
theorem test_stat_reports : answer (exec (.stat []) busy) = hx 7 0x00000403021006 := by decide

/-- Q2 and Q8. -/
theorem test_stat_key_only :
    answer (exec (.stat []) (keyed .aes key16)) = hx 7 0x00000401030000 ∧
    answer (exec (.stat [0x00]) State.reset) = hx 3 0x020000 := by decide

/-! ## Block Cipher Adapter -/

/-- K2, and K10: the key is padded on the right and `IV` is zeroed. -/
theorem test_keyLoad :
    let t := after (exec (.keyLoad .tdes2 (hx 16 0x0123456789abcdef23456789abcdef01)) busy)
    t.regs.key.data = hx 24 0x0123456789abcdef23456789abcdef010000000000000000 ∧
    t.regs.fam = .tdes2 ∧ t.regs.keyv = true ∧ t.regs.iv.data = zeros 16 ∧
    t.regs.blen = 16 := by decide

/-- K5 to K8. -/
theorem test_keyLoad_length :
    answer (exec (.keyLoad .aes (zeros 15)) State.reset) = hx 3 0x010000 ∧
    answer (exec (.keyLoad .des (zeros 16)) State.reset) = hx 3 0x010000 ∧
    answer (exec (.keyLoad .tdes3 (zeros 16)) State.reset) = hx 3 0x010000 ∧
    answer (exec (.keyLoad .aes []) State.reset) = hx 3 0x010000 := by decide

/-- K11: the CMAC registers stay. -/
theorem test_keyClear :
    (after (exec (.keyClear []) busy)).regs =
      { busy.regs with
        keyv := false, fam := .des, key := Bytes.zero 24, iv := Bytes.zero 16 } := by decide

/-- K12. -/
theorem test_keyClear_with_payload :
    (after (exec (.keyClear [0x00]) busy)).regs = { busy.regs with lerr := 0x02 } := by decide

/-- Y1. -/
theorem test_ecbEnc_toy :
    answer (ecbEncWith toy (hx 8 0x1020304050607080) toyDes) =
      hx 11 0x0000081223344556677889 := by decide

/-- Section 2.1, the errors of the two commands. -/
theorem test_ecbEnc_errors :
    answer (exec (.ecbEnc (zeros 8)) State.reset) = hx 3 0x030000 ∧
    answer (exec (.ecbEnc (zeros 16)) toyDes) = hx 3 0x020000 ∧
    answer (exec (.ecbEnc (zeros 8)) (keyed .aes key16)) = hx 3 0x020000 := by decide

/-- Y1. -/
theorem test_ecbDec_toy :
    answer (ecbDecWith toy (hx 8 0x1020304050607080) toyDes) =
      hx 11 0x0000080e1d2c3b4a596877 := by decide

/-- 40_block_cipher_adapter.md R107: as ECB.ENC. -/
theorem test_ecbDec_errors :
    answer (exec (.ecbDec (zeros 8)) State.reset) = hx 3 0x030000 ∧
    answer (exec (.ecbDec (zeros 7)) toyDes) = hx 3 0x020000 := by decide

/-! ## CBC Chaining Modes -/

/-- 41_cbc_modes.md R136: no key is needed. -/
theorem test_ivZero :
    exec (.ivZero []) State.reset = .next { State.reset with responses := [hx 3 0x000000] } ∧
    (after (exec (.ivZero []) busy)).regs = { busy.regs with iv := Bytes.zero 16 } :=
  ⟨rfl, by decide⟩

theorem test_ivZero_with_payload : answer (exec (.ivZero [0x00]) busy) = hx 3 0x020000 := by decide

/-- P4 step 21. -/
theorem test_ivLoad :
    (after (exec (.ivLoad (hx 8 0x1122334455667788)) toyDes)).regs.iv.data =
      hx 16 0x11223344556677880000000000000000 := by decide

/-- P4 step 17, and no key. -/
theorem test_ivLoad_errors :
    answer (exec (.ivLoad (zeros 16)) toyDes) = hx 3 0x020000 ∧
    answer (exec (.ivLoad (zeros 8)) State.reset) = hx 3 0x030000 := by decide

/-- P4 step 20, and the block loaded by its step 21. -/
theorem test_ivGet :
    answer (exec (.ivGet []) toyDes) = hx 11 0x0000080000000000000000 ∧
    answer (exec (.ivGet []) (withIv toyDes (hx 8 0x1122334455667788))) =
      hx 11 0x0000081122334455667788 := by decide

theorem test_ivGet_errors :
    answer (exec (.ivGet []) State.reset) = hx 3 0x030000 ∧
    answer (exec (.ivGet [0x00]) toyDes) = hx 3 0x020000 := by decide

/-- Y2: the legacy discipline decrypts outgoing, and carries the last output block. -/
theorem test_cbcOut_legacy_toy :
    let o := cbcOutWith toy (hx 16 0x10203040506070800000000000000000) toyDes
    answer o = hx 19 0x0000100e1d2c3b4a5968770c1a28364452606e ∧
    (after o).regs.iv.data = hx 16 0x0c1a28364452606e0000000000000000 := by decide

/-- Y5: TDES3 is the standard discipline, which encrypts outgoing. -/
theorem test_cbcOut_standard_toy :
    let s := keyed .tdes3 (hx 24 0x0102030405060708090a0b0c0d0e0f101112131415161718)
    let o := cbcOutWith toy (hx 16 0x0000000000000000ffffffffffffffff) s
    answer o = hx 19 0x0000100203040506070809ffffffffffffffff ∧
    (after o).regs.iv.data = hx 16 0xffffffffffffffff0000000000000000 := by decide

/-- Y3: the last payload block is carried. -/
theorem test_cbcIn_legacy_toy :
    let o := cbcInWith toy (hx 16 0x0e1d2c3b4a5968770c1a28364452606e) toyDes
    answer o = hx 19 0x0000100c1a28364452606e040a080a74123012 ∧
    (after o).regs.iv.data = hx 16 0x0c1a28364452606e0000000000000000 := by decide

/-- Y4, the incoming half. -/
theorem test_cbcIn_standard_toy :
    let s := keyed .aes (hx 16 0x0102030405060708090a0b0c0d0e0f10)
    let o := cbcInWith toy
      (hx 32 0x02030405060708090a0b0c0d0e0f1011ffffffffffffffffffffffffffffffff) s
    answer o = hx 35 0x00002000000000000000000000000000000000ffffffffffffffffffffffffffffffff ∧
    (after o).regs.iv.data = hx 16 0xffffffffffffffffffffffffffffffff := by decide

/-! ## CMAC Engine -/

/-- B3, B4, B5, B7 to B10: the doubling. -/
theorem test_dbl :
    (dbl (Bytes.ofList 16 (hx 16 0x80))).data = hx 16 0x0100 ∧
    (dbl (Bytes.ofList 16 [0x80])).data = hx 16 0x87 ∧
    (dbl (Bytes.ofList 16 (hx 16 0xffffffffffffffffffffffffffffffff))).data =
      hx 16 0xffffffffffffffffffffffffffffff79 ∧
    (dbl (Bytes.ofList 16 (hx 16 0x400000000000000000000000000000c3))).data =
      hx 16 0x80000000000000000000000000000186 ∧
    (dbl (Bytes.ofList 16 (hx 16 0xc00000000000000000000000000000c3))).data =
      hx 16 0x80000000000000000000000000000101 ∧
    (dbl (Bytes.ofList 16 (hx 16 0x7df76b0c1ab899b33e42f047b91b546f))).data =
      hx 16 0xfbeed618357133667c85e08f7236a8de ∧
    (dbl (Bytes.ofList 16 (hx 16 0xfbeed618357133667c85e08f7236a8de))).data =
      hx 16 0xf7ddac306ae266ccf90bc11ee46d513b := by decide

/-- The CMAC key of Y6 to Y8. -/
def toyKey : ByteString := List.replicate 16 0x7f

/-- Y6: the subkeys; the message starts empty. -/
theorem test_cmacInit_toy :
    let t := after (cmacInitWith toy 0x03 toyKey busy)
    t.regs.k1.data = hx 16 0x01010101010101010101010101010187 ∧
    t.regs.k2.data = hx 16 0x0202020202020202020202020202030e ∧
    t.regs.cinit = true ∧ t.regs.blen = 0 ∧ t.regs.x.data = zeros 16 ∧
    t.regs.buf.data = zeros 16 ∧ t.regs.keyv = true := by decide

/-- Section 2.4, the refusals of CMAC.INIT: a tag that is not AES, a length that is not 16. -/
theorem test_cmacInit_refuses :
    answer (exec (.cmacInit 0x01 (zeros 16)) State.reset) = hx 3 0x010000 ∧
    answer (exec (.cmacInit 0xff (zeros 16)) State.reset) = hx 3 0x010000 ∧
    answer (exec (.cmacInit 0x03 (zeros 24)) State.reset) = hx 3 0x010000 ∧
    answer (exec (.cmacInit 0x03 []) State.reset) = hx 3 0x010000 := by decide

/-- Y7: the seventeenth byte flushes the full block. -/
theorem test_cmacUpdate_flushes_toy :
    let t := after (cmacUpdateWith toy (hx 17 0x000102030405060708090a0b0c0d0e0f10)
      (cmacReady toy toyKey))
    t.regs.x.data = hx 16 0x808182838485868788898a8b8c8d8e8f ∧
    t.regs.buf.data = [0x10] ++ zeros 15 ∧ t.regs.blen = 1 := by decide

/-- Y8: a full block is held, not flushed; and section 2.4, an UPDATE before any INIT. -/
theorem test_cmacUpdate_holds_full_block :
    let t := after (cmacUpdateWith toy key16 (cmacReady toy toyKey))
    t.regs.x.data = zeros 16 ∧ t.regs.buf.data = key16 ∧ t.regs.blen = 16 ∧
    answer (exec (.cmacUpdate []) State.reset) = hx 3 0x040000 := by decide

/-- Y6, Y7, Y8: an empty message, a partial last block with a MAC of 4 bytes, a full last block. -/
theorem test_cmacFinal_toy :
    let s := cmacReady toy toyKey
    answer (cmacFinalWith toy 0 [] s) =
      hx 4 0x00001002 ++ List.replicate 13 0x82 ++ [0x83, 0x8e] ∧
    answer (cmacFinalWith toy 4 [] (after (cmacUpdateWith toy (key16 ++ [0x10]) s))) =
      hx 7 0x00000412830001 ∧
    answer (cmacFinalWith toy 0 [] (after (cmacUpdateWith toy key16 s))) =
      hx 19 0x000010818083828584878689888b8a8d8c8f08 := by decide

/-- Section 2.4: the engine is untouched by a refused FINAL; P1: it is re-armed by one that succeeds. -/
theorem test_cmacFinal_state :
    let s := after (cmacUpdateWith toy key16 (cmacReady toy toyKey))
    (after (exec (.cmacFinal 17 []) s)).regs = { s.regs with lerr := 0x05 } ∧
    (after (exec (.cmacFinal 8 [0x00]) s)).regs = { s.regs with lerr := 0x02 } ∧
    (after (cmacFinalWith toy 8 [] s)).regs = (cmacReady toy toyKey).regs := by decide

/-! ## Session Key Derivation and byte utilities -/

def rndA : ByteString := key16
def rndB : ByteString := hx 16 0x101112131415161718191a1b1c1d1e1f

/-- D1 to D4. -/
theorem test_skdDerive :
    answer (exec (.skdDerive .des (rndA.take 8 ++ rndB.take 8)) State.reset) =
      hx 11 0x0000080001020310111213 ∧
    answer (exec (.skdDerive .tdes2 (rndA.take 8 ++ rndB.take 8)) State.reset) =
      hx 19 0x00001000010203101112130405060714151617 ∧
    answer (exec (.skdDerive .tdes3 (rndA ++ rndB)) State.reset) =
      hx 27 0x000018000102031011121306070809161718190c0d0e0f1c1d1e1f ∧
    answer (exec (.skdDerive .aes (rndA ++ rndB)) State.reset) =
      hx 19 0x00001000010203101112130c0d0e0f1c1d1e1f := by decide

/-- D5, D6, D8. -/
theorem test_skdDerive_length :
    answer (exec (.skdDerive .tdes3 (zeros 16)) State.reset) = hx 3 0x020000 ∧
    answer (exec (.skdDerive .des (zeros 32)) State.reset) = hx 3 0x020000 ∧
    answer (exec (.skdDerive .aes []) State.reset) = hx 3 0x020000 := by decide

/-- U1, U3, U4. -/
theorem test_rotl1 :
    answer (exec (.rotl1 (hx 8 0x0001020304050607)) State.reset) =
      hx 11 0x0000080102030405060700 ∧
    answer (exec (.rotl1 [0xaa]) State.reset) = hx 4 0x000001aa ∧
    answer (exec (.rotl1 [0x01, 0x02, 0x03]) State.reset) = hx 6 0x000003020301 := by decide

/-- U5. -/
theorem test_rotl1_empty : answer (exec (.rotl1 []) State.reset) = hx 3 0x020000 := by decide

/-- U7, U10, U12. -/
theorem test_keyPrep :
    answer (exec (.keyPrep .des (hx 8 0x133457799bbcdff1)) State.reset) =
      hx 11 0x000008123456789abcdef0 ∧
    answer (exec (.keyPrep .aes (List.replicate 16 0xff)) State.reset) =
      hx 3 0x000010 ++ List.replicate 16 0xff ∧
    answer (exec (.keyPrep .tdes2 (hx 16 0x0123456789abcdef23456789abcdef01)) State.reset) =
      hx 19 0x0000100022446688aaccee22446688aaccee00 := by decide

/-- U11. -/
theorem test_keyPrep_length :
    (after (exec (.keyPrep .tdes3 (List.replicate 16 0xff)) State.reset)).regs =
      { Regs.reset with lerr := 0x01 } := by decide

/-! ## The intended ciphers (40_block_cipher_adapter.md R103), beside the machine -/

/-- E1, E2 (AES), E5, E7 (DES), E12 (TDES2), E13 (TDES3). -/
theorem test_intended_ciphers :
    Intended.enc .aes key16 (hx 16 0x00112233445566778899aabbccddeeff) =
      hx 16 0x69c4e0d86a7b0430d8cdb78070b4c55a ∧
    Intended.dec .aes key16 (hx 16 0x69c4e0d86a7b0430d8cdb78070b4c55a) =
      hx 16 0x00112233445566778899aabbccddeeff ∧
    Intended.enc .des (hx 8 0x133457799bbcdff1) (hx 8 0x0123456789abcdef) =
      hx 8 0x85e813540f0ab405 ∧
    Intended.dec .des (hx 8 0x133457799bbcdff1) (hx 8 0x85e813540f0ab405) =
      hx 8 0x0123456789abcdef ∧
    Intended.enc .tdes2 (hx 16 0x0123456789abcdef23456789abcdef01) (hx 8 0x6bc1bee22e409f96) =
      hx 8 0x06ede3d82884090a ∧
    Intended.enc .tdes3 (hx 24 0x0123456789abcdef23456789abcdef01456789abcdef0123)
      (hx 8 0x6bc1bee22e409f96) = hx 8 0x714772f339841d34 := by decide +kernel

/-- L4: the receive mode over two blocks, under either reading of `LRECV_CHAIN`. -/
theorem test_intended_lrecv_chain :
    let recv := fun chain => (legRecv chain (callDec .des (hx 8 0x133457799bbcdff1)) (zeros 8)
      [hx 8 0x85e813540f0ab405, hx 8 0x0123456789abcdef]).run Intended.params
    recv .prevCiphered = [hx 8 0x0123456789abcdef, hx 8 0x6be76f46efba273d] ∧
    recv .prevPlain = [hx 8 0x0123456789abcdef, hx 8 0xef2c3975691b5ed7] := by
  decide +kernel

/-- Section 2.4, first key: the whole MAC of the empty message (row 0) and of 40 bytes (row 40). -/
theorem test_intended_mac :
    let c := Intended.params
    let r := (cmacReady c (hx 16 0x2b7e151628aed2a6abf7158809cf4f3c)).regs
    let m := hx 40
      0x6bc1bee22e409f96e93d7e117393172aae2d8a571e03ac9c9eb76fac45af8e5130c81c46a35ce411
    (macOf r).run c = hx 16 0xbb1d6929e95937287fa37d129b756746 ∧
    (macOf ((absorb r m).run c)).run c = hx 16 0xdfa66747de9ae63030ca32611497c827 := by decide +kernel

/-- 70_reset_and_hazards.md R308: 17 bytes held and given make one call; two blocks received make two. -/
theorem test_cipher_calls :
    let s := cmacReady toy (zeros 16)
    cipherCalls toy (.cmacUpdate (zeros 7)) { s with regs := { s.regs with blen := 10 } } = ⟨1, 0⟩ ∧
    cipherCalls toy (.cbcIn (zeros 16)) toyDes = ⟨0, 2⟩ := by decide

/-- 41_cbc_modes.md R133 and Y2: the second call is given the zero block XORed with the answer to the first. -/
theorem test_call_trace :
    callTrace toy (.cbcOut (hx 16 0x10203040506070800000000000000000)) toyDes =
      [⟨.dec, .des, hx 8 0x0102030405060708, hx 8 0x1020304050607080⟩,
        ⟨.dec, .des, hx 8 0x0102030405060708, hx 8 0x0e1d2c3b4a596877⟩] := by decide

/-! ## Witnesses: states and operands that meet the hypotheses of each obligation

A clause under a hypothesis of its own has its own conjunct, at a boundary of its range where it has one. -/

def aesState : State := keyed .aes key16

def cmacState : State := cmacReady Config.params key16

/-- The CMAC state with `n` zero bytes of a message held. -/
def holding (n : Fin 17) : State := { cmacState with regs := { cmacState.regs with blen := n } }

theorem test_witness_DecodeEncodeIdentity :
    (Instr.cmacFinal 16 [0x01]).WellFormed ∧ (Instr.keyLoad .aes key16).WellFormed := by decide

theorem test_witness_EncodeDecodeIdentity :
    decode (hx 6 0x310000026162) = .ok (.cmacUpdate [0x61, 0x62]) := by decide

theorem test_witness_OpcodeMapDecodes :
    ([0x61] : ByteString).length ≤ 65535 ∧ (0x10 : Byte).toNat ≤ 16 ∧ (0x00 : Byte).toNat ≤ 16 := by
  decide

theorem test_witness_StepRunsDecodedCommand :
    (State.reset.presenting (hx 4 0x20000000)).pending = .frame (hx 4 0x20000000) :: [] ∧
    decode (hx 4 0x20000000) = .ok (.ivZero []) := by decide

theorem test_witness_EveryByteStringDecodes :
    let bad := fun f : ByteString =>
      f.length < 4 ∨ f.length ≠ 4 + (256 * (f.getD 2 0).toNat + (f.getD 3 0).toNat)
    bad (hx 3 0x010000) ∧ bad (hx 5 0x0100000000) ∧ ¬bad (hx 4 0x01000000) := by decide

theorem test_witness_ReservedEncodingsRefused :
    (0x00 : Byte) ∉ legalOpcodes ∧ (0x23 : Byte) ∉ legalOpcodes ∧ (0xff : Byte) ∉ legalOpcodes ∧
    (0x41 : Byte) ∈ zeroArgOpcodes ∧ (0x01 : Byte) ≠ 0x00 ∧
    (0x42 : Byte) ∈ familyArgOpcodes ∧ 0x04 ≤ (0x04 : Byte).toNat ∧
    0x11 ≤ (0x11 : Byte).toNat ∧ ([] : ByteString).length ≤ 65535 := by decide

/-- Each of the eight statuses, F1, F6, F9, F11, F13, K5, F5 and Q1. -/
theorem test_witness_FrameStatusFollowsCheckOrder :
    frameStatus Regs.reset [] = 0x07 ∧ frameStatus Regs.reset (hx 4 0x00000000) = 0x06 ∧
    frameStatus Regs.reset (hx 4 0x01010000) = 0x05 ∧
    frameStatus Regs.reset (hx 7 0x12000003000000) = 0x03 ∧
    frameStatus Regs.reset (hx 5 0x3208000100) = 0x04 ∧
    frameStatus Regs.reset (hx 4 0x1003000f ++ zeros 15) = 0x01 ∧
    frameStatus Regs.reset (hx 5 0x0100000100) = 0x02 ∧
    frameStatus Regs.reset (hx 4 0x02000000) = 0x00 := by decide

theorem test_witness_ReturnableStatusTable :
    (0x41 : Byte) ∈ legalOpcodes ∧ (0x02 : Byte) ∈ returnableStatuses 0x41 ∧
    ([] : ByteString).length ≤ 65535 ∧
    ∃ s', step (State.reset.presenting (commandFrame 0x41 0 [])) = .next s' :=
  ⟨by decide, by decide, by decide, _, rfl⟩

theorem test_witness_EveryFrameAnsweredOnce :
    (State.reset.presenting [0xff]).pending = .frame [0xff] :: [] := rfl

/-- An error and an answer. -/
theorem test_witness_ErrorWritesOnlyLerr :
    (∃ s', step (State.reset.presenting [0xff]) = .next s') ∧
    ∃ s', step (State.reset.presenting (hx 4 0x02000000)) = .next s' := ⟨⟨_, rfl⟩, _, rfl⟩

theorem test_witness_ResetSetsEveryRegister :
    ({ aesState with pending := [.reset] } : State).pending = .reset :: [] := rfl

theorem test_witness_IdleStepChangesNothing : State.reset.pending = [] := rfl

theorem cmacState_inv : cmacState.Inv where
  regs :=
    { noKey := fun _ => ⟨rfl, rfl, rfl⟩
      keyPadded := fun _ _ h => zeros_getElem? h
      ivPadded := fun _ _ h => zeros_getElem? h
      noCmac := nofun
      subkeys := fun _ => ⟨rfl, rfl⟩
      bufPadded := fun _ _ h => zeros_getElem? h
      freshMessage := fun _ => rfl
      statusRange := by decide }
  responses := by intro f h; cases h

theorem test_witness_StepKeepsInvariant :
    ∃ s s' : State, s.Inv ∧ step s = .next s' ∧ s' ≠ s :=
  ⟨cmacState.presenting (hx 4 0x02000000), _, ⟨cmacState_inv.regs, cmacState_inv.responses⟩, rfl,
    fun h => nomatch congrArg State.pending h⟩

/-- One command is in no row of the table of registers written. -/
theorem test_witness_CommandsWriteOnlyTheirRegisters :
    (∃ s', exec (.ecbEnc (zeros 16)) aesState = .next s') ∧
    writesKey (.ecbEnc (zeros 16)) = false ∧ writesIv (.ecbEnc (zeros 16)) = false ∧
    writesCmacKey (.ecbEnc (zeros 16)) = false ∧ writesMessage (.ecbEnc (zeros 16)) = false :=
  ⟨exec_next _ _, rfl, rfl, rfl, rfl⟩

/-- The two states differ in the other unit. -/
theorem test_witness_CipherUnitsAreIndependent :
    (isAdapterCommand (.ivGet []) = true ∧ SameAdapter State.reset.regs cmacState.regs ∧
      State.reset.responses = cmacState.responses ∧ State.reset.regs.cinit ≠ cmacState.regs.cinit ∧
      (∃ s', exec (.ivGet []) State.reset = .next s') ∧
      ∃ t', exec (.ivGet []) cmacState = .next t') ∧
    isCmacCommand (.cmacFinal 0 []) = true ∧ SameCmac State.reset.regs aesState.regs ∧
      State.reset.responses = aesState.responses ∧ State.reset.regs.keyv ≠ aesState.regs.keyv ∧
      (∃ s', exec (.cmacFinal 0 []) State.reset = .next s') ∧
      ∃ t', exec (.cmacFinal 0 []) aesState = .next t' :=
  ⟨⟨rfl, ⟨rfl, rfl, rfl, rfl⟩, rfl, by decide, exec_next _ _, exec_next _ _⟩, rfl,
    ⟨rfl, rfl, rfl, rfl, rfl, rfl, rfl⟩, rfl, by decide, exec_next _ _, exec_next _ _⟩

theorem test_witness_PureCommandsIgnoreState :
    isPureCommand (.rotl1 [0x01]) = true ∧ (∃ s', exec (.rotl1 [0x01]) State.reset = .next s') ∧
    ∃ t', exec (.rotl1 [0x01]) cmacState = .next t' := ⟨rfl, ⟨_, rfl⟩, _, rfl⟩

/-- Two states that differ in every secret register. -/
theorem test_witness_SecretsShowOnlyInCipherResults :
    let one := Bytes.ofList 16 [0x01]
    let s := aesState
    let t := { s with regs := { s.regs with
      key := Bytes.ofList 24 [0x01], ck := one, k1 := one, k2 := one, x := one, buf := one } }
    revealsCipherResult (.ivGet []) = false ∧
    s.regs = { t.regs with
      key := s.regs.key, ck := s.regs.ck, k1 := s.regs.k1, k2 := s.regs.k2, x := s.regs.x,
      buf := s.regs.buf } ∧
    s.regs.key ≠ t.regs.key ∧ (∃ s', exec (.ivGet []) s = .next s') ∧
    ∃ t', exec (.ivGet []) t = .next t' :=
  ⟨rfl, rfl, by decide, ⟨_, rfl⟩, _, rfl⟩

/-- Two states without a key that differ in the key's registers; likewise the CMAC engine's. -/
theorem test_witness_UnsetKeysAreNeverUsed :
    let one := Bytes.ofList 16 [0x01]
    let r := Regs.reset
    (r.keyv = false ∧ r = { ({ r with key := Bytes.ofList 24 [0x01], iv := one } : Regs) with
      key := r.key, iv := r.iv }) ∧
    (r.cinit = false ∧
      r = { ({ r with ck := one, k1 := one, k2 := one, x := one, buf := one } : Regs) with
        ck := r.ck, k1 := r.k1, k2 := r.k2, x := r.x, buf := r.buf }) ∧
    (∃ s', exec (.ecbEnc (zeros 8)) State.reset = .next s') ∧
    ∃ s', exec (.cmacFinal 0 []) State.reset = .next s' :=
  ⟨⟨rfl, rfl⟩, ⟨rfl, rfl⟩, exec_next _ _, exec_next _ _⟩

theorem test_witness_ZeroizeEqualsResetButLerr :
    let s := State.reset.presenting (hx 4 0x02000000)
    let t := { s with regs := { s.regs with lerr := 0x06 } }
    s.regs = { t.regs with lerr := s.regs.lerr } ∧ s.regs ≠ t.regs ∧ s.pending = t.pending ∧
    (∃ s', step s = .next s') ∧ ∃ t', step t = .next t' :=
  ⟨rfl, by decide, rfl, ⟨_, rfl⟩, _, rfl⟩

theorem test_witness_SettingCommandsAreIdempotent :
    ∃ s1 s2, exec (.keyLoad .aes key16) cmacState = .next s1 ∧
      exec (.keyLoad .aes key16) s1 = .next s2 ∧ s1.regs ≠ cmacState.regs :=
  ⟨_, _, rfl, rfl, fun h => nomatch congrArg Regs.keyv h⟩

/-- A repeated command that ends with OK. -/
theorem test_witness_ReadingCommandsMayBeRepeated :
    ∃ s1 s2, exec (.ivGet []) aesState = .next s1 ∧ exec (.ivGet []) s1 = .next s2 ∧
      s1.responses = aesState.responses ++ [0x00 :: (hx 2 0x0010 ++ zeros 16)] :=
  ⟨_, _, rfl, rfl, by decide⟩

/-- The last clause, of an error, has its case in the reset state. -/
theorem test_witness_CipherCallCounts :
    aesState.regs.keyv = true ∧ key16.length = aesState.regs.blockSize ∧
    key16.length = 1 * aesState.regs.blockSize ∧ aesState.regs.fam = .aes ∧
    (keyed .tdes2 []).regs.fam = .tdes2 ∧ cmacState.regs.cinit = true ∧ (16 : Byte).toNat ≤ 16 ∧
    opcode (.rotl1 []) ∉ ([0x12, 0x13, 0x24, 0x25, 0x30, 0x31, 0x32] : List Byte) ∧
    execWith toy (.cmacUpdate []) State.reset = .next (State.reset.raise .notInitialized) :=
  ⟨rfl, rfl, rfl, rfl, rfl, rfl, by decide, by decide, rfl⟩

theorem test_witness_ZeroizeEffect :
    ([] : ByteString) = [] ∧ ([0x00] : ByteString) ≠ [] ∧ (0x01 : Byte) ≠ 0 ∧
    ([0x00] : ByteString).length ≤ 65535 := by decide

theorem test_witness_StatReport :
    ([] : ByteString) = [] ∧ ([0x00] : ByteString) ≠ [] ∧ (0xff : Byte) ≠ 0 ∧
    ([0x00] : ByteString).length ≤ 65535 := by decide

theorem test_witness_KeyLoadEffect :
    key16.length = Config.kl .aes ∧ (zeros 8).length = Config.kl .des ∧
    (zeros 24).length = Config.kl .tdes3 ∧ key16.length = Config.kl .tdes2 ∧
    (zeros 15).length ≠ Config.kl .aes ∧ 3 < (0x04 : Byte).toNat ∧ 3 < (0xff : Byte).toNat ∧
    (zeros 15).length ≤ 65535 := by decide

theorem test_witness_KeyClearEffect :
    ([] : ByteString) = [] ∧ ([0x00] : ByteString) ≠ [] ∧ (0x01 : Byte) ≠ 0 ∧
    ([0x00] : ByteString).length ≤ 65535 := by decide

theorem test_witness_EcbEncEffect :
    aesState.regs.keyv = true ∧ (zeros 16).length = Config.bs aesState.regs.fam ∧
    toyDes.regs.keyv = true ∧ (zeros 8).length = Config.bs toyDes.regs.fam ∧
    State.reset.regs.keyv = false ∧ (zeros 15).length ≠ Config.bs aesState.regs.fam ∧
    (0x01 : Byte) ≠ 0 ∧ (zeros 15).length ≤ 65535 := by decide

theorem test_witness_EcbDecEffect :
    aesState.regs.keyv = true ∧ (zeros 16).length = Config.bs aesState.regs.fam ∧
    State.reset.regs.keyv = false ∧ (zeros 17).length ≠ Config.bs aesState.regs.fam ∧
    (0x01 : Byte) ≠ 0 ∧ (zeros 15).length ≤ 65535 := by decide

theorem test_witness_EcbRoundTrip :
    toyDes.regs.keyv = true ∧ (zeros 8).length = Config.bs toyDes.regs.fam := by decide

theorem test_witness_IvZeroEffect :
    ([] : ByteString) = [] ∧ ([0x00] : ByteString) ≠ [] ∧ (0x01 : Byte) ≠ 0 ∧
    ([0x00] : ByteString).length ≤ 65535 := by decide

theorem test_witness_IvLoadEffect :
    toyDes.regs.keyv = true ∧ (zeros 8).length = Config.bs toyDes.regs.fam ∧
    State.reset.regs.keyv = false ∧ (zeros 16).length ≠ Config.bs toyDes.regs.fam ∧
    (0x01 : Byte) ≠ 0 ∧ (zeros 8).length ≤ 65535 := by decide

theorem test_witness_IvGetEffect :
    toyDes.regs.keyv = true ∧ ([] : ByteString) = [] ∧ State.reset.regs.keyv = false ∧
    ([0x00] : ByteString) ≠ [] ∧ (0x01 : Byte) ≠ 0 ∧ ([0x00] : ByteString).length ≤ 65535 := by
  decide

theorem test_witness_CbcOutEffect :
    toyDes.regs.keyv = true ∧ 1 ≤ 1 ∧ (zeros 8).length = 1 * Config.bs toyDes.regs.fam ∧
    aesState.regs.keyv = true ∧ (zeros 32).length = 2 * Config.bs aesState.regs.fam ∧
    State.reset.regs.keyv = false ∧ (zeros 0).length = 0 ∧
    (zeros 15).length % Config.bs toyDes.regs.fam ≠ 0 ∧ (0x01 : Byte) ≠ 0 ∧
    (zeros 15).length ≤ 65535 := by decide

theorem test_witness_CbcInEffect :
    toyDes.regs.keyv = true ∧ 1 ≤ 1 ∧ (zeros 8).length = 1 * Config.bs toyDes.regs.fam ∧
    aesState.regs.keyv = true ∧ (zeros 32).length = 2 * Config.bs aesState.regs.fam ∧
    State.reset.regs.keyv = false ∧ (zeros 0).length = 0 ∧
    (zeros 17).length % Config.bs aesState.regs.fam ≠ 0 ∧ (0x01 : Byte) ≠ 0 ∧
    (zeros 17).length ≤ 65535 := by decide

theorem test_witness_StandardCbcRoundTrip :
    aesState.regs.keyv = true ∧ aesState.regs.fam = .aes ∧
    (zeros 16).length = Config.bs aesState.regs.fam ∧ 1 ≤ 2 ∧
    (zeros 32).length = 2 * Config.bs aesState.regs.fam ∧
    (keyed .tdes3 []).regs.fam = .tdes3 := by decide

theorem test_witness_LegacyPairComposition :
    toyDes.regs.keyv = true ∧ toyDes.regs.fam = .des ∧
    (zeros 8).length = Config.bs toyDes.regs.fam ∧ 1 ≤ 2 ∧
    (zeros 16).length = 2 * Config.bs toyDes.regs.fam ∧
    (keyed .tdes2 []).regs.fam = .tdes2 := by decide

/-- A partner's ciphered blocks, by recursion on the block number. -/
def partner (k p : ByteString) : Nat → ByteString
  | 0 => zeros 8
  | i + 1 => Config.bce .des k (xorBytes ((p.drop (i * 8)).take 8) (partner k p i))

theorem test_witness_LegacyReceiveUndoesPartner :
    ∃ c : Nat → ByteString, toyDes.regs.keyv = true ∧ toyDes.regs.fam = .des ∧
      (zeros 8).length = Config.bs toyDes.regs.fam ∧ 1 ≤ 2 ∧
      (zeros 16).length = 2 * Config.bs toyDes.regs.fam ∧ c 0 = zeros 8 ∧
      ∀ i < 2, c (i + 1) = Config.bce toyDes.regs.fam
        (toyDes.regs.key.data.take (Config.kl toyDes.regs.fam))
        (xorBytes (((zeros 16).drop (i * Config.bs toyDes.regs.fam)).take
          (Config.bs toyDes.regs.fam)) (c i)) :=
  ⟨partner (toyDes.regs.key.data.take 8) (zeros 16), rfl, rfl, rfl, by decide, rfl, rfl,
    fun _ _ => rfl⟩

theorem test_witness_CbcChainsAcrossCommands :
    (Instr.cbcOut = .cbcOut ∨ Instr.cbcOut = .cbcIn) ∧
    (Instr.cbcIn = .cbcOut ∨ Instr.cbcIn = .cbcIn) ∧ toyDes.regs.keyv = true ∧
    0 < (zeros 8).length ∧ (zeros 8).length % Config.bs toyDes.regs.fam = 0 ∧
    0 < (zeros 16).length ∧ (zeros 16).length % Config.bs toyDes.regs.fam = 0 :=
  ⟨.inl rfl, .inr rfl, rfl, by decide, rfl, by decide, rfl⟩

theorem test_witness_LegacyDirectionsAgreeOnFirstBlock :
    toyDes.regs.keyv = true ∧ toyDes.regs.fam = .des ∧ (zeros 8).length = 8 ∧
    toyDes.regs.iv = Bytes.zero 16 := by decide

theorem test_witness_LrecvChainReadingsAgree :
    toyDes.regs.keyv = true ∧ 0 < (zeros 16).length ∧
    (zeros 16).length % Config.bs toyDes.regs.fam = 0 ∧
    (zeros 8).length = Config.bs toyDes.regs.fam ∧ aesState.regs.fam = .aes := by decide

theorem test_witness_CmacInitEffect :
    (0x03 : Byte) = 0x03 ∧ key16.length = 16 ∧ (0x02 : Byte) ≠ 0x03 ∧ (zeros 15).length ≠ 16 := by
  decide

/-- No byte held, one place free, and a full block held; the next held count. -/
theorem test_witness_CmacUpdateEffect :
    cmacState.regs.cinit = true ∧ (1 : Fin 17).val = (holding 0).regs.blen.val + 1 ∧
    (16 : Fin 17).val = (holding 15).regs.blen.val + 1 ∧ (holding 16).regs.blen.val = 16 ∧
    State.reset.regs.cinit = false ∧ (0x01 : Byte) ≠ 0 ∧ ([0x61] : ByteString).length ≤ 65535 :=
  ⟨rfl, rfl, rfl, rfl, rfl, by decide, by decide⟩

theorem test_witness_MessageStateClosedForm :
    key16.length = 16 ∧ 0 < ([zeros 10, zeros 20].flatten.length - 1) / 16 := by decide

theorem test_witness_CmacFinalEffect :
    (16 : Byte).toNat ≤ 16 ∧ cmacState.regs.cinit = true ∧ ([] : ByteString) = [] ∧
    (holding 16).regs.blen.val = 16 ∧ (holding 15).regs.blen.val ≠ 16 ∧
    (holding 0).regs.blen.val ≠ 16 ∧ 16 < (17 : Byte).toNat ∧ State.reset.regs.cinit = false ∧
    ([0x00] : ByteString) ≠ [] ∧ ([0x00] : ByteString).length ≤ 65535 :=
  ⟨by decide, rfl, rfl, rfl, by decide, by decide, by decide, rfl, by decide, by decide⟩

/-- The last block full, partial and absent. -/
theorem test_witness_MacIsClosedFormOfMessage :
    key16.length = 16 ∧ (16 : Byte).toNat ≤ 16 ∧
    ([zeros 16].flatten.drop (16 * (([zeros 16].flatten.length - 1) / 16))).length = 16 ∧
    ([zeros 17].flatten.drop (16 * (([zeros 17].flatten.length - 1) / 16))).length ≠ 16 ∧
    (([] : List ByteString).flatten).length ≠ 16 := by decide

theorem test_witness_FinalRearmsLikeInit :
    cmacState.Inv ∧ cmacState.regs.cinit = true ∧ (16 : Byte).toNat ≤ 16 ∧
    (∃ s1, exec (.cmacFinal 16 []) cmacState = .next s1) ∧
    ∃ s2, exec (.cmacInit 3 cmacState.regs.ck.data) cmacState = .next s2 :=
  ⟨cmacState_inv, rfl, by decide, exec_next _ _, exec_next _ _⟩

theorem test_witness_SkdDeriveEffect :
    (zeros 16).length = 2 * Config.nl .des ∧ (zeros 32).length = 2 * Config.nl .tdes3 ∧
    (zeros 16).length ≠ 2 * Config.nl .tdes3 ∧ 3 < (0x04 : Byte).toNat ∧
    (zeros 32).length ≤ 65535 := by decide

theorem test_witness_RotateLeftEffect :
    ([0xaa] : ByteString) ≠ [] ∧ 0 < ([0xaa] : ByteString).length ∧ ([] : ByteString) = [] ∧
    (0x01 : Byte) ≠ 0 ∧ ([0xaa] : ByteString).length ≤ 65535 := by decide

theorem test_witness_KeyPrepEffect :
    (zeros 24).length = Config.kl .tdes3 ∧ Family.tdes3 ≠ .aes ∧ (zeros 16).length = Config.kl .aes ∧
    (zeros 16).length ≠ Config.kl .tdes3 ∧ 3 < (0x04 : Byte).toNat ∧
    (zeros 16).length ≤ 65535 := by decide

/-- The toy cipher, and one that differs from it on all but the one block the command gives it. -/
theorem test_witness_OutcomeDependsOnlyOnCallsMade :
    let c' := { toy with enc := fun f k b => if b = zeros 8 then toyEnc f k b else [] }
    (∀ q ∈ callTrace toy (.ecbEnc (zeros 8)) toyDes, answerCall c' q = answerCall toy q) ∧
    callTrace toy (.ecbEnc (zeros 8)) toyDes ≠ [] ∧
    c'.enc .des (zeros 8) (hx 8 1) ≠ toy.enc .des (zeros 8) (hx 8 1) := by decide

/-- The model's own cipher; an adapter command and two CMAC commands that call it. -/
theorem test_witness_CallsAreWellSizedAndOfTheirUnit :
    (∀ f k b, (Config.params.enc f k b).length = Config.bs f ∧
      (Config.params.dec f k b).length = Config.bs f) ∧
    (∃ q, q ∈ callTrace Config.params (.ecbDec (zeros 8)) toyDes) ∧
    isAdapterCommand (.ecbDec (zeros 8)) = true ∧
    (∃ q, q ∈ callTrace Config.params (.cmacInit 3 key16) State.reset) ∧
    (∃ q, q ∈ callTrace Config.params (.cmacFinal 0 []) cmacState) ∧
    isCmacCommand (.cmacFinal 0 []) = true :=
  ⟨fun f k b => ⟨bce_length f k b, bcd_length f k b⟩, ⟨_, .head _⟩, rfl, ⟨_, .head _⟩, ⟨_, .head _⟩, rfl⟩

/-- One block and two; CMAC.UPDATE makes a call for one byte more than a block, and none for a block. -/
theorem test_witness_CallAnswersMakeTheResult :
    toyDes.regs.keyv = true ∧ (zeros 8).length = Config.bs toyDes.regs.fam ∧
    0 < (zeros 16).length ∧ (zeros 16).length % Config.bs toyDes.regs.fam = 0 ∧
    toy.lrecvChain = .prevCiphered ∧ aesState.regs.fam = .aes ∧ key16.length = 16 ∧
    cmacState.regs.cinit = true ∧ (callTrace toy (.cmacUpdate (zeros 17)) cmacState).length = 1 ∧
    callTrace toy (.cmacUpdate (zeros 16)) cmacState = [] ∧ (16 : Byte).toNat ≤ 16 :=
  ⟨rfl, rfl, by decide, rfl, rfl, rfl, rfl, rfl, rfl, rfl, by decide⟩

end Sys2Proof.Tests
end

