-- ==== Sys2Proof/Proofs/CipherCalls.lean ====
section
/-! PROOF. A command under given parameters is the run of its computation with cipher calls, so its outcome
depends on the cipher only through those calls (00_scope.md R10, 40_block_cipher_adapter.md R109). -/

namespace Sys2Proof.Machine

/-- A command that uses the cipher finishes the run of its computation; any other makes no call. -/
theorem execWith_eq_run (c : Config.Params) (s : State) : ∀ i : Instr,
    execWith c i s = (commandProg c.lrecvChain c.cmacDefaultN i s).run c
  | .ecbEnc _ | .ecbDec _ | .cbcOut _ | .cbcIn _
  | .cmacInit _ _ | .cmacUpdate _ | .cmacFinal _ _ => (CipherProg.run_map c s.finish _).symm
  | .zeroize _ | .stat _ | .keyLoad _ _ | .keyClear _ | .ivZero _ | .ivLoad _ | .ivGet _
  | .skdDerive _ _ | .rotl1 _ | .keyPrep _ _ => rfl

/-- Settles O54: the two ciphers answer alike on the calls of one and the same computation
(`CipherProg.agree`), since the other two parameters, which choose it, are equal. -/
theorem outcomeDependsOnlyOnCallsMade : Obligations.OutcomeDependsOnlyOnCallsMade := by
  intro c c' i s hchain hn hagree
  rw [execWith_eq_run, execWith_eq_run, callTrace, callTrace, hchain, hn]
  exact CipherProg.agree _ hagree

end Sys2Proof.Machine
end

