-- ==== Sys2Proof/Proofs/CommandParts.lean ====
section
/-! PROOF. A command in three parts, each a function of the registers alone: the check that fails
first (60_exceptions.md R262), the registers it leaves when it ends with OK (10_state.md R38), and the
data it then answers. `exec_eq` ties them to the machine; the rules about registers and responses
follow from facts about one part each. -/

namespace Sys2Proof.Machine

/-- The error of the first check of a command that fails, if one does (20_memory.md R52,
60_exceptions.md R262). -/
def checkError : Instr → Regs → Option CmdError
  | .zeroize p, _ | .stat p, _ | .keyClear p, _ | .ivZero p, _ =>
    if p.length ≠ 0 then some .badLength else none
  | .keyLoad f p, _ | .keyPrep f p, _ =>
    if p.length ≠ Config.kl f then some .invalidKey else none
  | .ecbEnc p, r | .ecbDec p, r | .ivLoad p, r =>
    if r.keyv = false then some .noKey
    else if p.length ≠ r.blockSize then some .badLength else none
  | .ivGet p, r =>
    if r.keyv = false then some .noKey
    else if p.length ≠ 0 then some .badLength else none
  | .cbcOut p, r | .cbcIn p, r =>
    if r.keyv = false then some .noKey
    else if isWholeBlocks r.blockSize p = false then some .badLength else none
  | .cmacInit t p, _ =>
    if t ≠ familyCode .aes ∨ p.length ≠ 16 then some .invalidKey else none
  | .cmacUpdate _, r => if r.cinit = false then some .notInitialized else none
  | .cmacFinal n p, r =>
    if Config.cmacMaxN < n.toNat then some .badArg
    else if r.cinit = false then some .notInitialized
    else if p.length ≠ 0 then some .badLength else none
  | .skdDerive f p, _ => if p.length ≠ 2 * Config.nl f then some .badLength else none
  | .rotl1 p, _ => if p.length = 0 then some .badLength else none

/-- The registers a command leaves when no check fails (10_state.md R38). -/
def regsAfter : Instr → Regs → Regs
  | .zeroize _, r => { Regs.reset with lerr := r.lerr }
  | .keyLoad f p, r =>
    { r with fam := f, key := Bytes.ofList 24 p, keyv := true, iv := Bytes.zero 16 }
  | .keyClear _, r =>
    { r with keyv := false, fam := .des, key := Bytes.zero 24, iv := Bytes.zero 16 }
  | .ivZero _, r => { r with iv := Bytes.zero 16 }
  | .ivLoad p, r => { r with iv := Bytes.ofList 16 p }
  | .cbcOut p, r =>
    { r with iv := carryIv ((cbcOutBlocks r (payloadBlocks r.blockSize p)).run Config.params) }
  | .cbcIn p, r => { r with iv := carryIv (payloadBlocks r.blockSize p) }
  | .cmacInit _ p, r => (r.installCmacKey (Bytes.ofList 16 p)).run Config.params
  | .cmacUpdate p, r => (absorb r p).run Config.params
  | .cmacFinal _ _, r => r.restartMessage
  | .stat _, r | .ecbEnc _, r | .ecbDec _, r | .ivGet _, r => r
  | .skdDerive _ _, r | .rotl1 _, r | .keyPrep _ _, r => r

/-- The data a command answers when no check fails. -/
def answerData : Instr → Regs → ByteString
  | .stat _, r => statusReport r
  | .ecbEnc p, r => Config.bce r.fam r.loadedKey p
  | .ecbDec p, r => Config.bcd r.fam r.loadedKey p
  | .ivGet _, r => r.chainValue
  | .cbcOut p, r => ((cbcOutBlocks r (payloadBlocks r.blockSize p)).run Config.params).flatten
  | .cbcIn p, r =>
    ((cbcInBlocks .prevCiphered r (payloadBlocks r.blockSize p)).run Config.params).flatten
  | .cmacFinal n _, r =>
    (Config.bce .aes r.ck.data (xorBytes r.x.data (lastBlock r))).take (macLength 16 n)
  | .skdDerive f p, _ =>
    sessionKey f (slice 0 (Config.nl f) p) (slice (Config.nl f) (2 * Config.nl f) p)
  | .rotl1 p, _ => rotateLeftOne p
  | .keyPrep f p, _ => preparedKey f p
  | .zeroize _, _ | .keyLoad _ _, _ | .keyClear _, _ | .ivZero _, _ | .ivLoad _, _ => []
  | .cmacInit _ _, _ | .cmacUpdate _, _ => []

/-- A command ends in its failed check, or answers its data and leaves its registers. -/
theorem exec_eq (i : Instr) (s : State) :
    exec i s = (checkError i s.regs).elim
      (.next (s.reply (regsAfter i s.regs) (answerData i s.regs))) (fun e => .next (s.raise e)) := by
  cases i
  all_goals
    simp only [exec, execZeroize, execStat, execKeyLoad, execKeyClear, execEcbEnc, ecbEncWith,
      execEcbDec, ecbDecWith, execIvZero, execIvLoad, execIvGet, execCbcOut, cbcOutWith, execCbcIn,
      cbcInWith, execCmacInit, cmacInitWith, execCmacUpdate, cmacUpdateWith, execCmacFinal,
      cmacFinalWith, execSkdDerive, execRotl1, execKeyPrep, ecbEncProg_run, ecbDecProg_run,
      cbcOutProg_run, cbcInProg_run, cmacInitProg_run, cmacUpdateProg_run, cmacFinalProg_run,
      checkError]
    split_ifs <;> rfl

theorem exec_of_error {i : Instr} {s : State} {e : CmdError} (h : checkError i s.regs = some e) :
    exec i s = .next (s.raise e) := by rw [exec_eq, h]; rfl

theorem exec_of_ok {i : Instr} {s : State} (h : checkError i s.regs = none) :
    exec i s = .next (s.reply (regsAfter i s.regs) (answerData i s.regs)) := by rw [exec_eq, h]; rfl

/-- Everything a command can do, with what decides it. -/
theorem exec_next_cases {i : Instr} {s s' : State} (h : exec i s = .next s') :
    (∃ e, checkError i s.regs = some e ∧ s' = s.raise e) ∨
      (checkError i s.regs = none ∧ s' = s.reply (regsAfter i s.regs) (answerData i s.regs)) := by
  cases hc : checkError i s.regs with
  | some e => rw [exec_of_error hc] at h; cases h; exact .inl ⟨e, rfl, rfl⟩
  | none => rw [exec_of_ok hc] at h; cases h; exact .inr ⟨rfl, rfl⟩

/-- The checks read no register but `KEYV`, `FAM` and `CINIT` (20_memory.md R52,
60_exceptions.md R262). -/
theorem checkError_congr {i : Instr} {r t : Regs} (hk : r.keyv = t.keyv) (hf : r.fam = t.fam)
    (hc : r.cinit = t.cinit) : checkError i r = checkError i t := by
  have hb : r.blockSize = t.blockSize := congrArg Config.bs hf
  cases i <;> simp only [checkError, hk, hb, hc]

/-- Two states in which the same check fails, or none does and the data are equal, add the same
response. -/
theorem same_response {i : Instr} {s t s' t' : State} (hs : exec i s = .next s')
    (ht : exec i t = .next t') (hc : checkError i s.regs = checkError i t.regs)
    (hd : checkError i t.regs = none → answerData i s.regs = answerData i t.regs) :
    ∃ f, s'.responses = s.responses ++ [f] ∧ t'.responses = t.responses ++ [f] := by
  rcases exec_next_cases ht with ⟨e, he, rfl⟩ | ⟨hok, rfl⟩
  · rw [exec_of_error (hc.trans he)] at hs
    cases hs
    exact ⟨_, rfl, rfl⟩
  · rw [exec_of_ok (hc.trans hok), hd hok] at hs
    cases hs
    exact ⟨_, rfl, rfl⟩

end Sys2Proof.Machine
end

