-- ==== Sys2Proof/Proofs/Invariant.lean ====
section
/-! PROOF. The invariant of the registers and responses holds at reset and is kept by every step
(10_state.md R23 to R36, R41; 30_encoding.md R71). -/

namespace Sys2Proof.Machine

variable {c : Config.Params} {r : Regs}

/-- The registers at reset meet the invariant (10_state.md R41). -/
theorem Regs.reset_inv (c : Config.Params) : Regs.reset.Inv c where
  noKey _ := ⟨rfl, rfl, rfl⟩
  keyPadded _ _ := zeros_getElem?
  ivPadded _ _ := zeros_getElem?
  noCmac _ := ⟨rfl, rfl, rfl, rfl, rfl, rfl⟩
  subkeys := nofun
  bufPadded _ _ := zeros_getElem?
  freshMessage _ := rfl
  statusRange := by decide

/-- Loading a key of its family's length keeps the invariant (10_state.md R25, R26). -/
theorem Regs.Inv.loadKey (h : r.Inv c) {f : Family} {p : ByteString}
    (hp : p.length = Config.kl f) :
    ({ r with
      fam := f, key := Bytes.ofList 24 p, keyv := true, iv := Bytes.zero 16 } : Regs).Inv c :=
  ⟨nofun, fun _ hi h24 => Bytes.ofList_getElem?_ge (hp.le.trans hi) h24,
    fun _ _ h16 => zeros_getElem? h16, h.noCmac, h.subkeys, h.bufPadded, h.freshMessage,
    h.statusRange⟩

/-- Discarding the key keeps the invariant (10_state.md R23). -/
theorem Regs.Inv.clearKey (h : r.Inv c) :
    ({ r with
      keyv := false, fam := .des, key := Bytes.zero 24, iv := Bytes.zero 16 } : Regs).Inv c :=
  ⟨fun _ => ⟨rfl, rfl, rfl⟩, fun _ _ h24 => zeros_getElem? h24, fun _ _ h16 => zeros_getElem? h16,
    h.noCmac, h.subkeys, h.bufPadded, h.freshMessage, h.statusRange⟩

/-- With a key loaded, storing at most one block as the chaining value keeps the invariant
(10_state.md R26). -/
theorem Regs.Inv.storeIv (h : r.Inv c) (hk : r.keyv ≠ false) {b : ByteString}
    (hb : b.length ≤ r.blockSize) : ({ r with iv := Bytes.ofList 16 b } : Regs).Inv c :=
  h.withIv (fun h0 => absurd h0 hk) fun _ hi h16 => Bytes.ofList_getElem?_ge (hb.trans hi) h16

/-- The last of some blocks, if there is one, is no longer than a block. -/
theorem getLastD_length_le {n : Nat} {l : List ByteString} (h : ∀ b ∈ l, b.length = n) :
    (l.getLastD []).length ≤ n := by
  rcases List.mem_cons.1 (List.getLastD_mem_cons (l := l) (a := [])) with h0 | hl
  · rw [h0]; exact Nat.zero_le n
  · exact (h _ hl).le

/-- With a key loaded, carrying the last of some blocks keeps the invariant
(41_cbc_modes.md R135). -/
theorem Regs.Inv.carryIv (h : r.Inv c) (hk : r.keyv ≠ false) {l : List ByteString}
    (hl : ∀ b ∈ l, b.length = r.blockSize) : ({ r with iv := carryIv l } : Regs).Inv c :=
  h.storeIv hk (getLastD_length_le hl)

/-- The blocks CBC.OUT returns have the block size of the loaded family (41_cbc_modes.md R139). -/
theorem length_of_mem_cbcOutBlocks (r : Regs) (ps : List ByteString) :
    ∀ b ∈ (cbcOutBlocks r ps).run Config.params, b.length = r.blockSize := by
  rw [cbcOutBlocks_run]
  exact length_of_mem_chainOut (by intro b; split <;> simp [Regs.blockSize]) _ _

/-- A command that ends with OK keeps the invariant of the registers. -/
theorem Regs.Inv.regsAfter {i : Instr} (h : r.Inv Config.params) (hc : checkError i r = none) :
    (regsAfter i r).Inv Config.params := by
  cases i with
  | zeroize p => exact (Regs.reset_inv _).withLerr h.statusRange
  | keyLoad f p => exact h.loadKey (by simpa [checkError] using hc)
  | keyClear p => exact h.clearKey
  | ivZero p => exact h.withIv (fun _ => rfl) fun _ _ h16 => zeros_getElem? h16
  | ivLoad p =>
    simp only [checkError] at hc
    split_ifs at hc with hk hp
    exact h.storeIv hk (not_not.1 hp).le
  | cbcOut p =>
    simp only [checkError] at hc
    split_ifs at hc with hk
    exact h.carryIv hk (length_of_mem_cbcOutBlocks _ _)
  | cbcIn p =>
    simp only [checkError] at hc
    split_ifs at hc with hk hp
    have hw := Bool.eq_true_of_not_eq_false hp
    exact h.carryIv hk (payloadBlocks_of_isWholeBlocks (bs_pos r.fam) hw).1
  | cmacInit t p => exact h.installCmacKey _
  | cmacUpdate p => exact h.absorb (by simpa [checkError] using hc) p
  | cmacFinal n p => exact h.restartMessage
  | stat _ | ecbEnc _ | ecbDec _ | ivGet _ | skdDerive _ _ | rotl1 _ | keyPrep _ _ => exact h

/-- An error's response is a response frame without data (30_encoding.md R71). -/
theorem isResponse_error (e : CmdError) : IsResponse (responseFrame (errorCode e) []) :=
  ⟨_, [], rfl, Nat.zero_le _, errorCode_le e, fun _ => rfl⟩

theorem isResponse_ok {d : ByteString} (h : d.length ≤ Config.maxPayload) :
    IsResponse (responseFrame 0 d) :=
  ⟨0, d, rfl, h, by decide, fun h0 => absurd rfl h0⟩

/-- Adding a response frame to a state that meets the invariant keeps the form of the responses. -/
theorem State.Inv.responses_append {s : State} (h : s.Inv) {g : ByteString} (hg : IsResponse g) :
    ∀ f ∈ s.responses ++ [g], IsResponse f := by
  intro f hf
  rcases List.mem_append.1 hf with hf | hf
  · exact h.responses f hf
  · exact List.mem_singleton.1 hf ▸ hg

/-- Taking an error keeps the invariant (60_exceptions.md R263). -/
theorem State.Inv.raise {s : State} (h : s.Inv) (e : CmdError) : (s.raise e).Inv :=
  ⟨h.regs.withLerr (errorCode_le e), h.responses_append (isResponse_error e)⟩

theorem State.Inv.reply {s : State} (h : s.Inv) {t : Regs} {d : ByteString}
    (ht : t.Inv Config.params) (hd : d.length ≤ Config.maxPayload) : (s.reply t d).Inv :=
  ⟨ht, h.responses_append (isResponse_ok hd)⟩

/-- The data of a command whose payload fits the length field fit it too (30_encoding.md R71). -/
theorem answerData_length_le {i : Instr} {s : State} (hp : i.payload.length ≤ Config.maxPayload)
    (hc : checkError i s.regs = none) : (answerData i s.regs).length ≤ Config.maxPayload := by
  have hx := exec_fits i hp s
  rw [exec_of_ok hc] at hx
  rcases hx with ⟨e, he⟩ | ⟨t, d, hd, he⟩
  · exact absurd (Host.Outcome.next.inj he) (s.reply_ne_raise _ _ e)
  · have hr := congrArg State.responses (Host.Outcome.next.inj he)
    simp only [State.reply_responses, responseFrame_eq, List.append_cancel_left_eq, List.cons.injEq,
      and_true] at hr
    obtain ⟨-, -, -, hr⟩ := hr
    exact hr ▸ hd

/-- A command whose payload fits the length field keeps the invariant. -/
theorem State.Inv.exec {i : Instr} {s s' : State} (h : s.Inv)
    (hp : i.payload.length ≤ Config.maxPayload) (hx : exec i s = .next s') : s'.Inv := by
  rcases exec_next_cases hx with ⟨e, -, rfl⟩ | ⟨hc, rfl⟩
  · exact h.raise e
  · exact h.reply (h.regs.regsAfter hc) (answerData_length_le hp hc)

/-- Settles O15. -/
theorem resetMeetsInvariant : Obligations.ResetMeetsInvariant := ⟨Regs.reset_inv _, nofun⟩

/-- Settles O14: a step is idle, a reset, a decode error, or a command whose payload the length field
of its frame bounds; each keeps the invariant. -/
theorem stepKeepsInvariant : Obligations.StepKeepsInvariant := by
  intro s s' h hstep
  match hp : s.pending with
  | [] =>
    rw [step_idle hp] at hstep
    cases hstep
    exact h
  | .reset :: ms =>
    rw [step_reset hp] at hstep
    cases hstep
    exact ⟨Regs.reset_inv _, h.responses⟩
  | .frame f :: ms =>
    have hms : ({ s with pending := ms } : State).Inv := ⟨h.regs, h.responses⟩
    match hd : decode f with
    | .ok i =>
      rw [step_frame_ok hp hd] at hstep
      exact hms.exec (payload_le_of_decode hd) hstep
    | .error e =>
      rw [step_frame_error hp hd] at hstep
      cases hstep
      exact hms.raise e

end Sys2Proof.Machine
end

