-- ==== Sys2Proof/Proofs/RegisterUse.lean ====
section
/-! PROOF. Which registers a command writes and which its response depends on (10_state.md R23, R25,
R31, R38, R39), and which commands may be repeated (20_memory.md R54). -/

namespace Sys2Proof.Machine

/-! ## Registers written -/

section
variable {i : Instr} (r : Regs)

theorem regsAfter_key (h : writesKey i = false) :
    (regsAfter i r).keyv = r.keyv ∧ (regsAfter i r).fam = r.fam ∧ (regsAfter i r).key = r.key := by
  cases i with
  | keyLoad _ _ | keyClear _ | zeroize _ => cases h
  | cmacUpdate p => exact ⟨absorb_keyv .., absorb_fam .., absorb_key ..⟩
  | _ => exact ⟨rfl, rfl, rfl⟩

theorem regsAfter_iv (h : writesIv i = false) : (regsAfter i r).iv = r.iv := by
  cases i with
  | keyLoad _ _ | keyClear _ | zeroize _ | ivZero _ | ivLoad _ | cbcOut _ | cbcIn _ => cases h
  | cmacUpdate p => exact absorb_iv ..
  | _ => rfl

theorem regsAfter_cmacKey (h : writesCmacKey i = false) :
    (regsAfter i r).cinit = r.cinit ∧ (regsAfter i r).ck = r.ck ∧ (regsAfter i r).k1 = r.k1 ∧
      (regsAfter i r).k2 = r.k2 := by
  cases i with
  | cmacInit _ _ | zeroize _ => cases h
  | cmacUpdate p => exact ⟨absorb_cinit .., absorb_ck .., absorb_k1 .., absorb_k2 ..⟩
  | _ => exact ⟨rfl, rfl, rfl, rfl⟩

theorem regsAfter_message (h : writesMessage i = false) :
    (regsAfter i r).x = r.x ∧ (regsAfter i r).buf = r.buf ∧ (regsAfter i r).blen = r.blen := by
  cases i with
  | cmacInit _ _ | cmacUpdate _ | cmacFinal _ _ | zeroize _ => cases h
  | _ => exact ⟨rfl, rfl, rfl⟩

end

/-- Settles O16: an error writes `LERR` only, and an answer leaves the registers of `regsAfter`. -/
theorem commandsWriteOnlyTheirRegisters : Obligations.CommandsWriteOnlyTheirRegisters := by
  intro i s s' h
  rcases exec_next_cases h with ⟨e, -, rfl⟩ | ⟨-, rfl⟩
  · exact ⟨fun _ => ⟨rfl, rfl, rfl⟩, fun _ => rfl, fun _ => ⟨rfl, rfl, rfl, rfl⟩,
      fun _ => ⟨rfl, rfl, rfl⟩, rfl, _, rfl⟩
  · exact ⟨regsAfter_key _, regsAfter_iv _, regsAfter_cmacKey _, regsAfter_message _, rfl, _, rfl⟩

/-! ## Registers a response depends on -/

/-- The data of a command that returns no cipher result do not depend on the secret registers
(10_state.md R39). -/
theorem answerData_withSecrets {i : Instr} (h : revealsCipherResult i = false) (r : Regs)
    (key : Bytes 24) (ck k1 k2 x buf : Bytes 16) :
    answerData i { r with key := key, ck := ck, k1 := k1, k2 := k2, x := x, buf := buf } =
      answerData i r := by
  cases i with
  | ecbEnc _ | ecbDec _ | cbcOut _ | cbcIn _ | cmacFinal _ _ =>
    simp [revealsCipherResult, opcode] at h
  | _ => rfl

/-- Settles O19: the checks read no secret register, and the data do not either. -/
theorem secretsShowOnlyInCipherResults : Obligations.SecretsShowOnlyInCipherResults := by
  intro i s t s' t' hi hst hs ht
  refine same_response hs ht ?_ fun _ => ?_
  · rw [hst]; exact checkError_congr rfl rfl rfl
  · rw [hst]; exact answerData_withSecrets hi ..

/-- Without an adapter key, the data of a command that passes its checks do not depend on `KEY` and
`IV`: the commands that read them need the key (10_state.md R23). -/
theorem answerData_withAdapterKey {i : Instr} {r : Regs} (hk : r.keyv = false)
    (hc : checkError i r = none) (key : Bytes 24) (iv : Bytes 16) :
    answerData i { r with key := key, iv := iv } = answerData i r := by
  cases i with
  | ecbEnc _ | ecbDec _ | ivGet _ | cbcOut _ | cbcIn _ => simp [checkError, hk] at hc
  | _ => rfl

/-- Without a CMAC key, the data of a command that passes its checks do not depend on the CMAC unit's
other registers: CMAC.FINAL, which reads them, needs that key (10_state.md R30). -/
theorem answerData_withCmacKey {i : Instr} {r : Regs} (hk : r.cinit = false)
    (hc : checkError i r = none) (ck k1 k2 x buf : Bytes 16) :
    answerData i { r with ck := ck, k1 := k1, k2 := k2, x := x, buf := buf } = answerData i r := by
  cases i with
  | cmacFinal n p =>
    simp only [checkError, hk] at hc
    split_ifs at hc
  | _ => rfl

/-- Settles O20: a command that reads a key's registers ends in an error while the key is not
loaded. -/
theorem unsetKeysAreNeverUsed : Obligations.UnsetKeysAreNeverUsed := by
  intro i s t s' t' hs ht
  refine ⟨fun hk hst => ?_, fun hk hst => ?_⟩
  · have htk : t.regs.keyv = false := by rw [hst] at hk; exact hk
    refine same_response hs ht ?_ fun hc => ?_
    · rw [hst]; exact checkError_congr rfl rfl rfl
    · rw [hst]; exact answerData_withAdapterKey htk hc ..
  · have htk : t.regs.cinit = false := by rw [hst] at hk; exact hk
    refine same_response hs ht ?_ fun hc => ?_
    · rw [hst]; exact checkError_congr rfl rfl rfl
    · rw [hst]; exact answerData_withCmacKey htk hc ..

/-! ## Repeated commands -/

/-- The commands that set registers from their operands alone (20_memory.md R54). -/
def settingCommands (f : Family) (t : Byte) (p : ByteString) : List Instr :=
  [.keyLoad f p, .keyClear p, .ivZero p, .ivLoad p, .cmacInit t p, .zeroize p]

/-- The commands that write no register (20_memory.md R54). -/
def readingCommands (f : Family) (p : ByteString) : List Instr :=
  [.stat p, .ivGet p, .ecbEnc p, .ecbDec p, .skdDerive f p, .rotl1 p, .keyPrep f p]

theorem regsAfter_idempotent {f : Family} {t : Byte} {p : ByteString} {i : Instr}
    (h : i ∈ settingCommands f t p) (r : Regs) : regsAfter i (regsAfter i r) = regsAfter i r := by
  simp only [settingCommands, List.mem_cons, List.not_mem_nil, or_false] at h
  rcases h with rfl | rfl | rfl | rfl | rfl | rfl <;> rfl

/-- A setting command writes no register that its own checks read. -/
theorem checkError_regsAfter {f : Family} {t : Byte} {p : ByteString} {i : Instr}
    (h : i ∈ settingCommands f t p) (r : Regs) : checkError i (regsAfter i r) = checkError i r := by
  simp only [settingCommands, List.mem_cons, List.not_mem_nil, or_false] at h
  rcases h with rfl | rfl | rfl | rfl | rfl | rfl <;> rfl

theorem regsAfter_of_reading {f : Family} {p : ByteString} {i : Instr}
    (h : i ∈ readingCommands f p) (r : Regs) : regsAfter i r = r := by
  simp only [readingCommands, List.mem_cons, List.not_mem_nil, or_false] at h
  rcases h with rfl | rfl | rfl | rfl | rfl | rfl | rfl <;> rfl

/-- Settles O22: after an error the same check fails again, and after OK no check fails and the same
registers are set. -/
theorem settingCommandsAreIdempotent : Obligations.SettingCommandsAreIdempotent := by
  intro s s1 s2 f t p i hi h1 h2
  rcases exec_next_cases h1 with ⟨e, he, rfl⟩ | ⟨hc, rfl⟩
  · have he' : checkError i (s.raise e).regs = some e :=
      (checkError_congr (r := (s.raise e).regs) (t := s.regs) rfl rfl rfl).trans he
    rw [exec_of_error he'] at h2
    cases h2
    rfl
  · rcases exec_next_cases h2 with ⟨e, he, -⟩ | ⟨-, rfl⟩
    · rw [State.reply_regs, checkError_regsAfter hi, hc] at he
      cases he
    · exact regsAfter_idempotent hi s.regs

/-- Settles O23: a command that ends with OK and writes no register leaves the state in which it gives
the same answer. -/
theorem readingCommandsMayBeRepeated : Obligations.ReadingCommandsMayBeRepeated := by
  intro s s1 s2 f p i hi h1 h2
  have hr : regsAfter i s.regs = s.regs := regsAfter_of_reading hi s.regs
  rcases exec_next_cases h1 with ⟨e, -, rfl⟩ | ⟨hc, rfl⟩
  · exact ⟨errorCode e, _, rfl, fun h0 => by cases e <;> cases h0⟩
  · rw [hr] at h2 ⊢
    rw [exec_of_ok (s := s.reply s.regs _) hc] at h2
    cases h2
    exact ⟨0, _, rfl, fun _ => ⟨rfl, hr, rfl⟩⟩

end Sys2Proof.Machine
end

