-- ==== Sys2Proof/Proofs/Encoding.lean ====
section
/-! PROOF. The frames and the commands are in one-to-one correspondence (30_encoding.md R70, R73, R79),
the frames outside it are refused (R72, R74, R76), and every frame is answered once (R71, R72). -/

namespace Sys2Proof.Machine

/-! ## Decoding and encoding -/

theorem wellFormed_iff (i : Instr) :
    i.WellFormed ↔ i.argOk = true ∧ i.payload.length ≤ Config.maxPayload := by
  simp [Instr.WellFormed, Instr.wf, Instr.payloadOk]

/-- Settles O1: a frame whose payload fits is decoded by its opcode, argument and payload, and the opcode
map reads the command back from its own. -/
theorem decodeEncodeIdentity : Obligations.DecodeEncodeIdentity := by
  intro i hwf
  obtain ⟨harg, hlen⟩ := (wellFormed_iff i).1 hwf
  calc decode (encode i)
      = decodeCommand (opcode i) (argByte i) i.payload := decode_commandFrame _ _ hlen
    _ = .ok i := decodeCommand_opcode harg

/-- Settles O2: the decoded command has the frame's opcode, argument and payload, and the length field,
being the payload's length, is the one the encoder writes. -/
theorem encodeDecodeIdentity : Obligations.EncodeDecodeIdentity := by
  intro f i h
  rcases decode_cases f with ⟨-, hbad⟩ | ⟨op, arg, hi, lo, p, rfl, hlen, hd⟩
  · rw [hbad] at h; cases h
  · obtain ⟨rfl, rfl, rfl, harg⟩ := decodeCommand_ok (hd.symm.trans h)
    refine ⟨(wellFormed_iff i).2 ⟨harg, hlen ▸ lenField_le hi lo⟩, ?_⟩
    rw [encode, commandFrame, hlen, be16_lenField]
    rfl

/-- Settles O4: the seventeen frames are the encodings of the seventeen commands. -/
theorem opcodeMapDecodes : Obligations.OpcodeMapDecodes := by
  intro p fam arg hp
  have own (i : Instr) (harg : i.argOk = true) (hpay : i.payload = p) : decode (encode i) = .ok i :=
    decodeEncodeIdentity i ((wellFormed_iff i).2 ⟨harg, hpay ▸ hp⟩)
  exact ⟨own (.zeroize p) rfl rfl, own (.stat p) rfl rfl, own (.keyLoad fam p) rfl rfl,
    own (.keyClear p) rfl rfl, own (.ecbEnc p) rfl rfl, own (.ecbDec p) rfl rfl,
    own (.ivZero p) rfl rfl, own (.ivLoad p) rfl rfl, own (.ivGet p) rfl rfl,
    own (.cbcOut p) rfl rfl, own (.cbcIn p) rfl rfl, own (.cmacInit arg p) rfl rfl,
    own (.cmacUpdate p) rfl rfl, fun hn => own (.cmacFinal arg p) (decide_eq_true hn) rfl,
    own (.skdDerive fam p) rfl rfl, own (.rotl1 p) rfl rfl, own (.keyPrep fam p) rfl rfl⟩

/-- Settles O3: the decoder run on the six frames. -/
theorem specFramesDecode : Obligations.SpecFramesDecode := by
  unfold Obligations.SpecFramesDecode
  decide

/-! ## Byte strings that are not frames -/

/-- A byte string without a header, or whose length is not what its `LEN` says, is no frame
(30_encoding.md R72). -/
theorem decode_of_malformed {f : ByteString}
    (h : f.length < 4 ∨ f.length ≠ 4 + lenField (f.getD 2 0) (f.getD 3 0)) :
    decode f = .error .badFrame := by
  rcases decode_cases f with ⟨-, hbad⟩ | ⟨op, arg, hi, lo, p, rfl, hlen, -⟩
  · exact hbad
  · change p.length + 4 < 4 ∨ p.length + 4 ≠ 4 + lenField hi lo at h
    omega

/-- Any other byte string is decoded from its `OP`, `ARG` and payload (30_encoding.md R72). -/
theorem decode_of_framed {f : ByteString}
    (h : ¬(f.length < 4 ∨ f.length ≠ 4 + lenField (f.getD 2 0) (f.getD 3 0))) :
    decode f = decodeCommand (f.getD 0 0) (f.getD 1 0) (f.drop 4) := by
  rcases decode_cases f with ⟨hmal, -⟩ | ⟨op, arg, hi, lo, p, rfl, -, hd⟩
  · exact absurd hmal h
  · exact hd

/-- Settles O6: the step follows the decoder, and every step gives a next state. -/
theorem everyByteStringDecodes : Obligations.EveryByteStringDecodes := by
  refine fun s f => ⟨fun h => step_frame_error (ms := s.pending) rfl (decode_of_malformed h),
    fun h => ?_, step_next _⟩
  split
  · next i hd => exact step_frame_ok (ms := s.pending) rfl ((decode_of_framed h).trans hd)
  · next e hd => exact step_frame_error (ms := s.pending) rfl ((decode_of_framed h).trans hd)

/-! ## Reserved encodings -/

section
variable {op : Byte} (arg : Byte) (p : ByteString)

/-- The opcode map ends in its last arm on every opcode it does not list (30_encoding.md R76). -/
theorem decodeCommand_of_illegal (h : op ∉ legalOpcodes) :
    decodeCommand op arg p = .error .badOpcode := by
  have hop : op = BitVec.ofNat 8 op.toNat := by simp
  unfold decodeCommand
  split
  case h_18 => rfl
  all_goals
    next hn =>
      rw [hop, hn] at h
      exact absurd (by decide) h

/-- The argument check of the opcodes of 30_encoding.md R74 (a). -/
theorem decodeCommand_of_zeroArg (h : op ∈ zeroArgOpcodes) :
    ∃ i, decodeCommand op arg p = zeroArg arg i := by
  simp only [zeroArgOpcodes, List.cons_append, List.nil_append, List.mem_cons, List.not_mem_nil,
    or_false] at h
  rcases h with rfl | rfl | rfl | rfl | rfl | rfl | rfl | rfl | rfl | rfl | rfl | rfl <;>
    exact ⟨_, rfl⟩

/-- The argument check of the opcodes of 30_encoding.md R74 (b). -/
theorem decodeCommand_of_familyArg (h : op ∈ familyArgOpcodes) :
    ∃ mk, decodeCommand op arg p = familyArg arg mk := by
  simp only [familyArgOpcodes, List.mem_cons, List.not_mem_nil, or_false] at h
  rcases h with rfl | rfl | rfl <;> exact ⟨_, rfl⟩

variable {arg}

theorem zeroArg_reserved (h : arg ≠ 0) (i : Instr) : zeroArg arg i = .error .badArg := if_neg h

theorem familyArg_reserved (h : 3 < arg.toNat) (mk : Family → Instr) :
    familyArg arg mk = .error .badArg := by
  rw [familyArg, (familyOfCode_eq_none_iff arg).2 h]

theorem macLenArg_reserved (h : Config.cmacMaxN < arg.toNat) (i : Instr) :
    macLenArg arg i = .error .badArg := if_neg (Nat.not_le.2 h)

end

/-- Settles O7: the decoder refuses an illegal opcode in the map's last arm, and a reserved argument in
the check of its kind. -/
theorem reservedEncodingsRefused : Obligations.ReservedEncodingsRefused := by
  refine fun s op arg p hp => ⟨fun hop =>
    step_presenting_error hp (decodeCommand_of_illegal arg p hop), fun h => ?_⟩
  suffices hd : decodeCommand op arg p = .error .badArg from step_presenting_error hp hd
  rcases h with ⟨hop, harg⟩ | ⟨hop, harg⟩ | ⟨rfl, harg⟩
  · obtain ⟨i, hi⟩ := decodeCommand_of_zeroArg arg p hop
    exact hi.trans (zeroArg_reserved harg i)
  · obtain ⟨mk, hmk⟩ := decodeCommand_of_familyArg arg p hop
    exact hmk.trans (familyArg_reserved harg mk)
  · exact macLenArg_reserved harg (.cmacFinal arg p)

/-! ## Steps over a frame -/

/-- Settles O5. -/
theorem stepRunsDecodedCommand : Obligations.StepRunsDecodedCommand :=
  fun _ _ _ _ hp hd => step_frame_ok hp hd

/-- Everything a step over a frame can do, once the move is made: end in an error, or answer data that
fit the length field (30_encoding.md R71, R72). -/
theorem step_frame_cases {s : State} {f : ByteString} {ms : List HostMove}
    (h : s.pending = .frame f :: ms) :
    (∃ e, step s = .next ({ s with pending := ms }.raise e)) ∨
      ∃ r d, d.length ≤ Config.maxPayload ∧ step s = .next ({ s with pending := ms }.reply r d) := by
  match hd : decode f with
  | .ok i => rw [step_frame_ok h hd]; exact exec_fits i (payload_le_of_decode hd) _
  | .error e => exact .inl ⟨e, step_frame_error h hd⟩

/-- Settles O10: an error's response is `ST 00 00`, and an answer's length field reads back as the length
of its data. -/
theorem everyFrameAnsweredOnce : Obligations.EveryFrameAnsweredOnce := by
  intro s f ms h
  rcases step_frame_cases h with ⟨e, he⟩ | ⟨r, d, hd, he⟩
  · exact ⟨_, errorCode e, 0, 0, [], he, rfl, rfl, rfl, errorCode_le e, fun _ => rfl⟩
  · exact ⟨_, 0, _, _, d, he, rfl, rfl, (lenField_be16 hd).symm, by decide, fun h0 => absurd rfl h0⟩

end Sys2Proof.Machine
end

