-- ==== Sys2Proof/Proofs/AdapterCommands.lean ====
section
/-! PROOF. What the commands of the block cipher adapter do (40_block_cipher_adapter.md R104 to R108): each
part of a command's effect is read off its checks, its registers and its data (Proofs/CommandParts.lean). -/

namespace Sys2Proof.Machine

/-! ## How a command ends, and reserved arguments -/

section
variable {i : Instr} {s : State}

/-- A command none of whose checks fails answers its data. -/
theorem answers_of_checkError_none (h : checkError i s.regs = none) :
    Answers (exec i s) s (regsAfter i s.regs) (answerData i s.regs) := exec_of_ok h

/-- A command one of whose checks fails ends in the status of that error. -/
theorem errs_of_checkError {e : CmdError} (h : checkError i s.regs = some e) :
    Errs (exec i s) s (errorCode e) := exec_of_error h

/-- The three cases of a command that needs the adapter key and a payload of one block
(20_memory.md R52, 60_exceptions.md R262). -/
theorem blockCommand_cases {p : ByteString}
    (hi : checkError i s.regs = if s.regs.keyv = false then some .noKey
      else if p.length ≠ Config.bs s.regs.fam then some .badLength else none) :
    (s.regs.keyv = true → p.length = Config.bs s.regs.fam →
      Answers (exec i s) s (regsAfter i s.regs) (answerData i s.regs)) ∧
    (s.regs.keyv = false → Errs (exec i s) s 0x03) ∧
    (s.regs.keyv = true → p.length ≠ Config.bs s.regs.fam → Errs (exec i s) s 0x02) := by
  refine ⟨fun hk hp => answers_of_checkError_none ?_, fun hk => errs_of_checkError (e := .noKey) ?_,
    fun hk hp => errs_of_checkError (e := .badLength) ?_⟩
  · rw [hi, if_neg (by simp [hk]), if_neg (not_not.2 hp)]
  · rw [hi, if_pos hk]
  · rw [hi, if_neg (by simp [hk]), if_pos hp]

end

section
variable (s : State) {op arg : Byte} {p : ByteString}

/-- A non-zero argument ends in BadArg where the opcode takes none (30_encoding.md R74 (a)). -/
theorem errs_of_nonzeroArg (hop : op ∈ zeroArgOpcodes) (harg : arg ≠ 0) (hp : p.length ≤ 65535) :
    Errs (step (s.presenting (commandFrame op arg p))) s 0x05 :=
  (reservedEncodingsRefused s op arg p hp).2 (.inl ⟨hop, harg⟩)

/-- An argument that is no family code ends in BadArg where the opcode takes one
(30_encoding.md R74 (b)). -/
theorem errs_of_noFamilyArg (hop : op ∈ familyArgOpcodes) (harg : 3 < arg.toNat)
    (hp : p.length ≤ 65535) : Errs (step (s.presenting (commandFrame op arg p))) s 0x05 :=
  (reservedEncodingsRefused s op arg p hp).2 (.inr (.inl ⟨hop, harg⟩))

end

/-- The loaded key is the first `kl(FAM)` bytes of `KEY` (10_state.md R25). -/
theorem loadedKey_eq_take (r : Regs) : r.loadedKey = r.key.data.take (Config.kl r.fam) :=
  slice_zero _ _

/-! ## KEY.LOAD and KEY.CLEAR -/

/-- Settles O27: the key register is the payload padded with zeros. -/
theorem keyLoadEffect : Obligations.KeyLoadEffect := by
  refine fun s f p arg => ⟨fun hp => ⟨Bytes.ofList 24 p, ?_, ?_⟩, fun hp => ?_, ?_⟩
  · rw [Bytes.ofList_data (hp ▸ kl_le f), hp]; rfl
  · exact answers_of_checkError_none (i := .keyLoad f p) (if_neg (not_not.2 hp))
  · exact errs_of_checkError (i := .keyLoad f p) (if_pos hp)
  · exact errs_of_noFamilyArg s (by decide)

/-- Settles O28: the registers of the adapter and CBC units are at their reset values. -/
theorem keyClearEffect : Obligations.KeyClearEffect := by
  refine fun s p arg => ⟨?_, fun hp => ?_, errs_of_nonzeroArg s (by decide)⟩
  · rintro rfl
    exact ⟨Bytes.zero 24, Bytes.zero 16, .des, rfl, rfl, rfl, answers_of_checkError_none rfl⟩
  · exact errs_of_checkError (i := .keyClear p) (if_pos (mt List.length_eq_zero_iff.1 hp))

/-! ## ECB.ENC and ECB.DEC -/

/-- Settles O29: ECB.ENC is a command of one block that writes no register. -/
theorem ecbEncEffect : Obligations.EcbEncEffect := by
  intro s p arg
  obtain ⟨hok, hkey, hlen⟩ := blockCommand_cases (i := .ecbEnc p) (s := s) rfl
  rw [← loadedKey_eq_take]
  exact ⟨hok, hkey, hlen, errs_of_nonzeroArg s (by decide)⟩

/-- Settles O30: ECB.DEC is a command of one block that writes no register. -/
theorem ecbDecEffect : Obligations.EcbDecEffect := by
  intro s p arg
  obtain ⟨hok, hkey, hlen⟩ := blockCommand_cases (i := .ecbDec p) (s := s) rfl
  rw [← loadedKey_eq_take]
  exact ⟨hok, hkey, hlen, errs_of_nonzeroArg s (by decide)⟩

section
variable {s : State} {b d : ByteString} (hk : s.regs.keyv = true)
  (hb : b.length = Config.bs s.regs.fam)
include hk hb

theorem ecbEnc_answers (hd : Config.bce s.regs.fam s.regs.loadedKey b = d) :
    Answers (exec (.ecbEnc b) s) s s.regs d := by
  rw [← hd, loadedKey_eq_take]
  exact (ecbEncEffect s b 0).1 hk hb

theorem ecbDec_answers (hd : Config.bcd s.regs.fam s.regs.loadedKey b = d) :
    Answers (exec (.ecbDec b) s) s s.regs d := by
  rw [← hd, loadedKey_eq_take]
  exact (ecbDecEffect s b 0).1 hk hb

end

/-- Settles O31: the first command leaves the registers as they are, and the two functions of the cipher
undo each other on blocks (00_scope.md R10). -/
theorem ecbRoundTrip : Obligations.EcbRoundTrip := by
  intro s b hk hb
  have henc := ecbEnc_answers hk hb rfl
  have hdec := ecbDec_answers hk hb rfl
  exact ⟨⟨_, _, henc, henc, ecbDec_answers hk (bce_length ..) (bcd_bce hb)⟩,
    ⟨_, _, hdec, hdec, ecbEnc_answers hk (bcd_length ..) (bce_bcd hb)⟩⟩

end Sys2Proof.Machine
end

