-- ==== Sys2Proof/Proofs/CallUse.lean ====
section
/-! PROOF. Which calls of the cipher a command makes (40_block_cipher_adapter.md R102, R109), and that it
ends in what the answers to its calls make (40_block_cipher_adapter.md R106, R107, 41_cbc_modes.md R139,
R140, 42_cmac_engine.md R172, R174, R176). -/

namespace Sys2Proof.Machine

/-! ## Calls made -/

/-- A call of the adapter: under `FAM` and the loaded key, on one block (40_block_cipher_adapter.md R100,
R102). -/
structure IsAdapterCall (r : Regs) (q : CipherCall) : Prop where
  fam : q.fam = r.fam
  key : q.key = r.loadedKey
  block : q.block.length = r.blockSize

/-- A call of the CMAC engine under the key `ck`: `BCE` of AES, on one block
(40_block_cipher_adapter.md R109). -/
structure IsCmacCall (ck : Bytes 16) (q : CipherCall) : Prop where
  dir : q.dir = .enc
  fam : q.fam = .aes
  key : q.key = ck.data
  block : q.block.length = 16

theorem IsAdapterCall.wellSized {r : Regs} {q : CipherCall} (h : IsAdapterCall r q) :
    q.key.length = Config.kl q.fam ∧ q.block.length = Config.bs q.fam := by
  rw [h.key, h.block, h.fam]
  exact ⟨loadedKey_length r, rfl⟩

theorem IsCmacCall.wellSized {ck : Bytes 16} {q : CipherCall} (h : IsCmacCall ck q) :
    q.key.length = Config.kl q.fam ∧ q.block.length = Config.bs q.fam := by
  rw [h.key, h.block, h.fam]
  exact ⟨ck.len, rfl⟩

/-- The blocks of an accepted CBC payload have the block size of the loaded family (20_memory.md R52). -/
theorem length_of_mem_payloadBlocks {r : Regs} {p : ByteString}
    (hw : isWholeBlocks r.blockSize p = true) :
    ∀ b ∈ payloadBlocks r.blockSize p, b.length = r.blockSize :=
  (payloadBlocks_of_isWholeBlocks (bs_pos r.fam) hw).1

/-- CBC.OUT calls for whole blocks only: each is a payload block XORed with the starting value or with
the answer before, and the answers are blocks. -/
theorem cbcOutBlocks_trace_mem {c : Config.Params} {r : Regs} {ps : List ByteString}
    (hc : ∀ f k b, (c.enc f k b).length = Config.bs f ∧ (c.dec f k b).length = Config.bs f)
    (hp : ∀ b ∈ ps, b.length = r.blockSize) :
    ∀ q ∈ (cbcOutBlocks r ps).trace c, IsAdapterCall r q := by
  have hv : r.chainValue.length = r.blockSize := chainValue_length r
  unfold cbcOutBlocks
  split
  · refine stdOut_trace_mem c (f := encryptBlock r) (fun b hb q hq => ?_)
      (fun b => (hc r.fam r.loadedKey b).1) hv hp
    obtain rfl := List.mem_singleton.1 hq
    exact ⟨rfl, rfl, hb⟩
  · rw [legSend_eq_stdOut]
    refine stdOut_trace_mem c (f := decryptBlock r) (fun b hb q hq => ?_)
      (fun b => (hc r.fam r.loadedKey b).2) hv hp
    obtain rfl := List.mem_singleton.1 hq
    exact ⟨rfl, rfl, hb⟩

/-- Every command that makes a call is one of the adapter and CBC units, and calls under the loaded key,
or one of the CMAC unit, and calls under the CMAC key: for CMAC.INIT the one it installs. -/
theorem callTrace_mem_cases {c : Config.Params} {i : Instr} {s : State} {q : CipherCall}
    (hc : ∀ f k b, (c.enc f k b).length = Config.bs f ∧ (c.dec f k b).length = Config.bs f)
    (hq : q ∈ callTrace c i s) :
    (isAdapterCommand i = true ∧ isCmacCommand i = false ∧ IsAdapterCall s.regs q) ∨
      (isAdapterCommand i = false ∧ isCmacCommand i = true ∧ ∃ ck, IsCmacCall ck q ∧
        ((∃ t, i = .cmacInit t ck.data) ∨ (opcode i ≠ 0x30 ∧ ck = s.regs.ck))) := by
  cases i with
  | ecbEnc p =>
    rw [callTrace_ecbEnc, List.mem_ite_nil_left, List.mem_ite_nil_left, not_not,
      List.mem_singleton] at hq
    obtain ⟨-, hp, rfl⟩ := hq
    exact .inl ⟨rfl, rfl, rfl, rfl, hp⟩
  | ecbDec p =>
    rw [callTrace_ecbDec, List.mem_ite_nil_left, List.mem_ite_nil_left, not_not,
      List.mem_singleton] at hq
    obtain ⟨-, hp, rfl⟩ := hq
    exact .inl ⟨rfl, rfl, rfl, rfl, hp⟩
  | cbcOut p =>
    rw [callTrace_cbcOut, List.mem_ite_nil_left, List.mem_ite_nil_left] at hq
    obtain ⟨-, hw, hq⟩ := hq
    have hps := length_of_mem_payloadBlocks (r := s.regs) (Bool.eq_true_of_not_eq_false hw)
    exact .inl ⟨rfl, rfl, cbcOutBlocks_trace_mem hc hps q hq⟩
  | cbcIn p =>
    rw [callTrace_cbcIn, List.mem_ite_nil_left, List.mem_ite_nil_left, List.mem_map] at hq
    obtain ⟨-, hw, b, hb, rfl⟩ := hq
    have hps := length_of_mem_payloadBlocks (r := s.regs) (Bool.eq_true_of_not_eq_false hw)
    exact .inl ⟨rfl, rfl, rfl, rfl, hps b hb⟩
  | cmacInit t p =>
    rw [callTrace_cmacInit, List.mem_ite_nil_left, not_or, not_not, not_not,
      List.mem_singleton] at hq
    obtain ⟨⟨-, hp⟩, rfl⟩ := hq
    exact .inr ⟨rfl, rfl, Bytes.ofList 16 p, ⟨rfl, rfl, rfl, zeros_length 16⟩,
      .inl ⟨t, by rw [Bytes.ofList_data_of_length hp]⟩⟩
  | cmacUpdate p =>
    rw [callTrace_cmacUpdate, List.mem_ite_nil_left] at hq
    obtain ⟨hdir, hfam, hkey, hblock⟩ := absorb_trace_mem c p s.regs q hq.2
    exact .inr ⟨rfl, rfl, s.regs.ck, ⟨hdir, hfam, hkey, hblock⟩, .inr ⟨by simp [opcode], rfl⟩⟩
  | cmacFinal n p =>
    rw [callTrace_cmacFinal, List.mem_ite_nil_left, List.mem_ite_nil_left, List.mem_ite_nil_left,
      List.mem_singleton] at hq
    obtain ⟨-, -, -, rfl⟩ := hq
    exact .inr ⟨rfl, rfl, s.regs.ck, ⟨rfl, rfl, rfl, by simp [xorBytes]⟩,
      .inr ⟨by simp [opcode], rfl⟩⟩
  | zeroize _ | stat _ | keyLoad _ _ | keyClear _ | ivZero _ | ivLoad _ | ivGet _
  | skdDerive _ _ | rotl1 _ | keyPrep _ _ => cases hq

/-- Settles O55: a command that makes a call is of one of the two units, and of that one only. -/
theorem callsAreWellSizedAndOfTheirUnit : Obligations.CallsAreWellSizedAndOfTheirUnit := by
  intro c i s q hc hq
  rcases callTrace_mem_cases hc hq with ⟨ha, hm, hcall⟩ | ⟨ha, hm, ck, hcall, hck⟩
  · obtain ⟨hkey, hblock⟩ := hcall.wellSized
    exact ⟨hkey, hblock, fun _ => ⟨hcall.fam, hcall.key.trans (loadedKey_eq_take _)⟩,
      fun h => absurd (hm.symm.trans h) Bool.false_ne_true, .inl ha⟩
  · obtain ⟨hkey, hblock⟩ := hcall.wellSized
    refine ⟨hkey, hblock, fun h => absurd (ha.symm.trans h) Bool.false_ne_true,
      fun _ => ⟨hcall.dir, hcall.fam, ?_⟩, .inr hm⟩
    rw [hcall.key]
    exact hck.imp_right fun ⟨hop, h⟩ => ⟨hop, congrArg Bytes.data h⟩

/-! ## What the calls make -/

section
variable {c : Config.Params} {s : State} {p : ByteString}

theorem callTrace_ecb_of_ok (hk : s.regs.keyv = true) (hp : p.length = Config.bs s.regs.fam) :
    callTrace c (.ecbEnc p) s = [⟨.enc, s.regs.fam, s.regs.loadedKey, p⟩] ∧
      callTrace c (.ecbDec p) s = [⟨.dec, s.regs.fam, s.regs.loadedKey, p⟩] := by
  simp [hk, hp, Regs.blockSize]

theorem execWith_ecb_of_ok (hk : s.regs.keyv = true) (hp : p.length = Config.bs s.regs.fam) :
    execWith c (.ecbEnc p) s = .next (s.reply s.regs (c.enc s.regs.fam s.regs.loadedKey p)) ∧
      execWith c (.ecbDec p) s = .next (s.reply s.regs (c.dec s.regs.fam s.regs.loadedKey p)) := by
  simp [execWith, ecbEncWith, ecbDecWith, hk, hp, Regs.blockSize]

/-- CBC.OUT answers the answers to its calls (41_cbc_modes.md R139). -/
theorem execWith_cbcOut_of_ok (hk : s.regs.keyv = true)
    (hw : isWholeBlocks s.regs.blockSize p = true) :
    ∃ v, execWith c (.cbcOut p) s = .next (s.reply { s.regs with iv := v }
      ((callTrace c (.cbcOut p) s).map (answerCall c)).flatten) := by
  refine ⟨carryIv ((cbcOutBlocks s.regs (payloadBlocks s.regs.blockSize p)).run c), ?_⟩
  simp [execWith, cbcOutWith, hk, hw, cbcOutBlocks_answers]

theorem callTrace_cbcIn_of_ok (hk : s.regs.keyv = true)
    (hw : isWholeBlocks s.regs.blockSize p = true) :
    callTrace c (.cbcIn p) s =
      (payloadBlocks s.regs.blockSize p).map (⟨.dec, s.regs.fam, s.regs.loadedKey, ·⟩) := by
  simp [hk, hw]

/-- CBC.IN calls with its payload blocks in order (41_cbc_modes.md R132, R134). -/
theorem callTrace_cbcIn_blocks (hk : s.regs.keyv = true)
    (hw : isWholeBlocks s.regs.blockSize p = true) :
    (callTrace c (.cbcIn p) s).map (·.block) = payloadBlocks s.regs.blockSize p := by
  rw [callTrace_cbcIn_of_ok hk hw, List.map_map]
  exact List.map_id _

/-- Chaining inward is one XOR for each payload block, with the block before it. -/
theorem chainIn_eq_zipWith (f : ByteString → ByteString) (v : ByteString) (ps : List ByteString) :
    chainIn f v ps = List.zipWith xorBytes (ps.map f) (v :: ps) := by
  induction ps generalizing v with
  | nil => rfl
  | cons p ps ih => rw [chainIn, ih]; rfl

/-- In the standard discipline `LRECV_CHAIN` has no effect, and with the previous ciphered block the
legacy one chains alike (41_cbc_modes.md R130, R132, R134). -/
theorem cbcInBlocks_run_of_ciphered {chain : Config.LrecvChain} {r : Regs}
    (h : chain = .prevCiphered ∨ r.fam = .tdes3 ∨ r.fam = .aes) (ps : List ByteString) :
    (cbcInBlocks chain r ps).run c = chainIn (c.dec r.fam r.loadedKey) r.chainValue ps := by
  rw [← cbcInBlocks_run]
  rcases h with rfl | hf | hf
  · rfl
  · simp only [cbcInBlocks, hf, Config.discipline]
  · simp only [cbcInBlocks, hf, Config.discipline]

/-- CBC.IN answers the answers to its calls, each XORed with the block before (41_cbc_modes.md R140). -/
theorem execWith_cbcIn_of_ok (hk : s.regs.keyv = true)
    (hw : isWholeBlocks s.regs.blockSize p = true)
    (h : c.lrecvChain = .prevCiphered ∨ s.regs.fam = .tdes3 ∨ s.regs.fam = .aes) :
    ∃ v, execWith c (.cbcIn p) s = .next (s.reply { s.regs with iv := v }
      (List.zipWith xorBytes ((callTrace c (.cbcIn p) s).map (answerCall c))
        (s.regs.chainValue :: (callTrace c (.cbcIn p) s).map (·.block))).flatten) := by
  refine ⟨carryIv (payloadBlocks s.regs.blockSize p), ?_⟩
  rw [callTrace_cbcIn_blocks hk hw, callTrace_cbcIn_of_ok hk hw]
  simp [execWith, cbcInWith, hk, hw, cbcInBlocks_run_of_ciphered h, chainIn_eq_zipWith,
    Function.comp_def]

/-- CMAC.INIT makes one call and installs the key (42_cmac_engine.md R172). -/
theorem cmacInit_of_ok (hp : p.length = 16) :
    callTrace c (.cmacInit 3 p) s = [⟨.enc, .aes, p, zeros 16⟩] ∧
      execWith c (.cmacInit 3 p) s =
        .next (s.reply ((s.regs.installCmacKey (Bytes.ofList 16 p)).run c) []) := by
  simp [execWith, cmacInitWith, hp, familyCode, Bytes.ofList_data_of_length hp]

/-- A byte leaves in `X` the answer to its call, if it makes one (42_cmac_engine.md R174). -/
theorem absorbByte_x (r : Regs) (b : Byte) :
    ((absorbByte r b).run c).x =
      (((absorbByte r b).trace c).getLast?.map (Bytes.ofList 16 <| answerCall c ·)).getD r.x := by
  rw [absorbByte_trace]
  split
  · next hfull => rw [absorbByte_of_full c b hfull]; rfl
  · next hroom => rw [absorbByte_of_room b hroom]; rfl

/-- A payload leaves in `X` the answer to the last call, if there is one (42_cmac_engine.md R174). -/
theorem absorb_x (r : Regs) (p : ByteString) :
    ((absorb r p).run c).x =
      (((absorb r p).trace c).getLast?.map (Bytes.ofList 16 <| answerCall c ·)).getD r.x := by
  induction p generalizing r with
  | nil => rfl
  | cons b p ih =>
    rw [absorb_cons_run, absorb_cons_trace, ih, absorbByte_x, List.getLast?_append, Option.map_or,
      Option.getD_or]

theorem cmacUpdate_of_ok (hi : s.regs.cinit = true) :
    callTrace c (.cmacUpdate p) s = (absorb s.regs p).trace c ∧
      execWith c (.cmacUpdate p) s = .next (s.reply ((absorb s.regs p).run c) []) := by
  simp [execWith, cmacUpdateWith, hi]

/-- CMAC.FINAL makes one call and answers the first bytes of its answer (42_cmac_engine.md R176). -/
theorem cmacFinal_of_ok (hi : s.regs.cinit = true) {n : Byte} (hn : n.toNat ≤ 16) :
    ∃ q, callTrace c (.cmacFinal n []) s = [q] ∧ execWith c (.cmacFinal n []) s =
      .next (s.reply s.regs.restartMessage
        ((answerCall c q).take (macLength c.cmacDefaultN n))) := by
  have hmax : ¬Config.cmacMaxN < n.toNat := Nat.not_lt.2 hn
  exact ⟨⟨.enc, .aes, s.regs.ck.data, xorBytes s.regs.x.data (lastBlock s.regs)⟩,
    by simp [hi, hmax], by simp [execWith, cmacFinalWith, hi, hmax]⟩

end

/-- Settles O56, one command after the other. -/
theorem callAnswersMakeTheResult : Obligations.CallAnswersMakeTheResult := by
  refine fun c s p n => ⟨fun hk hp => ?_, fun hk hp hmod => ?_, fun hp => ?_, fun hi => ?_,
    fun hi hn => ?_⟩
  · obtain ⟨hte, htd⟩ := callTrace_ecb_of_ok (c := c) hk hp
    obtain ⟨hxe, hxd⟩ := execWith_ecb_of_ok (c := c) hk hp
    rw [← loadedKey_eq_take]
    exact ⟨_, _, rfl, rfl, hte, htd, hxe, hxd⟩
  · have hw : isWholeBlocks s.regs.blockSize p = true := isWholeBlocks_iff.2 ⟨hp, hmod⟩
    refine ⟨execWith_cbcOut_of_ok hk hw, ?_, fun h => ?_⟩
    · rw [callTrace_cbcIn_blocks hk hw]
      exact (payloadBlocks_of_isWholeBlocks (bs_pos s.regs.fam) hw).2
    · exact execWith_cbcIn_of_ok hk hw h
  · obtain ⟨ht, hx⟩ := cmacInit_of_ok (c := c) (s := s) hp
    refine ⟨_, _, rfl, ht, hx, ?_, rfl⟩
    rw [Regs.installCmacKey_k1, subkey1, Bytes.ofList_data_of_length hp]
    rfl
  · obtain ⟨ht, hx⟩ := cmacUpdate_of_ok (c := c) (p := p) hi
    refine ⟨_, hx, ?_⟩
    rw [ht, absorb_x]
    cases ((absorb s.regs p).trace c).getLast? <;> rfl
  · obtain ⟨q, ht, hx⟩ := cmacFinal_of_ok (c := c) hi hn
    exact ⟨_, q, ht, hx⟩

end Sys2Proof.Machine
end

