-- ==== Sys2Proof/Proofs/CbcCommands.lean ====
section
/-! PROOF. What the commands of the CBC unit do (41_cbc_modes.md R136 to R140), and where the directions
and the readings of the legacy discipline agree (R134, R143). An accepted payload is the concatenation of
its blocks (`IsPayload`): over them CBC.OUT answers `outBlocks` and CBC.IN answers `inBlocks`, the two
chaining functions of Laws/Ops.lean under the loaded key. -/

namespace Sys2Proof.Machine

/-! ## The chaining functions, block by block -/

/-- Block `i` of a string, block 0 first (20_memory.md R51). -/
def blockAt (bs : Nat) (p : ByteString) (i : Nat) : ByteString := (p.drop (i * bs)).take bs

theorem blocks_eq_map_range (bs n : Nat) (p : ByteString) :
    blocks bs n p = (List.range n).map (blockAt bs p) := by
  refine List.ext_getElem? fun i => ?_
  by_cases h : i < n
  · rw [blocks_getElem? p h, List.getElem?_map, List.getElem?_range h]; rfl
  · rw [List.getElem?_eq_none (by simpa using h), List.getElem?_eq_none (by simpa using h)]

theorem length_blockAt {bs n : Nat} {p : ByteString} (hp : p.length = n * bs) :
    ∀ i < n, (blockAt bs p i).length = bs := by
  have hmem := length_of_mem_blocks hp
  rw [blocks_eq_map_range] at hmem
  exact fun i hi => hmem _ (List.mem_map_of_mem (List.mem_range.2 hi))

/-- The blocks going out as a sequence from the chaining value: `O_0 = V`, `O_(i+1) = f(P_i xor O_i)`. -/
def outSeq (f : ByteString → ByteString) (v : ByteString) (b : Nat → ByteString) : Nat → ByteString
  | 0 => v
  | i + 1 => f (xorBytes (b i) (outSeq f v b i))

theorem getLastD_map_range (c : Nat → ByteString) (n : Nat) :
    ((List.range n).map fun i => c (i + 1)).getLastD (c 0) = c n := by
  cases n <;> simp [List.range_succ]

/-- Going out, the blocks answered are `outSeq` after its start. -/
theorem chainOut_map_range (f : ByteString → ByteString) (v : ByteString) (b : Nat → ByteString)
    (n : Nat) :
    chainOut f v ((List.range n).map b) = (List.range n).map fun i => outSeq f v b (i + 1) := by
  induction n with
  | zero => rfl
  | succ n ih =>
    have hlast : ((List.range n).map fun i => outSeq f v b (i + 1)).getLastD v = outSeq f v b n :=
      getLastD_map_range (outSeq f v b) n
    rw [List.range_succ, List.map_append, chainOut_append, ih, hlast, List.map_append]
    rfl

/-- Coming in with blocks `C_1, ..., C_n` after `C_0 = V`, block `i` is `f(C_i) xor C_(i-1)`. -/
theorem chainIn_map_range_succ (f : ByteString → ByteString) (c : Nat → ByteString) (n : Nat) :
    chainIn f (c 0) ((List.range n).map fun i => c (i + 1)) =
      (List.range n).map fun i => xorBytes (f (c (i + 1))) (c i) := by
  induction n with
  | zero => rfl
  | succ n ih =>
    rw [List.range_succ, List.map_append, chainIn_append, ih, getLastD_map_range, List.map_append]
    rfl

/-- Coming in, each block is XORed with the payload block before it, the first with the chaining value. -/
theorem chainIn_map_range (f : ByteString → ByteString) (v : ByteString) (b : Nat → ByteString)
    (n : Nat) :
    chainIn f v ((List.range n).map b) =
      (List.range n).map fun i => xorBytes (f (b i)) (if i = 0 then v else b (i - 1)) :=
  chainIn_map_range_succ f (fun i => if i = 0 then v else b (i - 1)) n

/-- Coming in with what has gone out from the same chaining value. -/
theorem chainIn_outSeq (f g : ByteString → ByteString) (v : ByteString) (b : Nat → ByteString)
    (n : Nat) :
    chainIn g v ((List.range n).map fun i => outSeq f v b (i + 1)) =
      (List.range n).map fun i =>
        xorBytes (g (f (xorBytes (b i) (outSeq f v b i)))) (outSeq f v b i) :=
  chainIn_map_range_succ g (outSeq f v b) n

/-! ## Payloads of whole blocks -/

/-- One or more blocks of `n` bytes: what CBC.OUT and CBC.IN accept (20_memory.md R52). -/
structure IsPayload (n : Nat) (ps : List ByteString) : Prop where
  nonempty : ps ≠ []
  size : ∀ b ∈ ps, b.length = n

theorem isPayload_singleton (b : ByteString) : IsPayload b.length [b] :=
  ⟨List.cons_ne_nil _ _, by simp⟩

section
variable {n : Nat} {ps qs : List ByteString}

theorem IsPayload.append (h : IsPayload n ps) (hq : IsPayload n qs) : IsPayload n (ps ++ qs) :=
  ⟨by simp [h.nonempty], fun b hb => (List.mem_append.1 hb).elim (h.size b) (hq.size b)⟩

/-- A string of `m` blocks, `1 ≤ m`, is the concatenation of an accepted payload's blocks. -/
theorem isPayload_blocks {m : Nat} {p : ByteString} (hm : 1 ≤ m) (hp : p.length = m * n) :
    IsPayload n (blocks n m p) :=
  ⟨List.length_pos_iff.1 ((blocks_length n m p).symm ▸ hm), length_of_mem_blocks hp⟩

theorem isPayload_map_range {m : Nat} (hm : 1 ≤ m) {b : Nat → ByteString}
    (hb : ∀ i < m, (b i).length = n) : IsPayload n ((List.range m).map b) :=
  ⟨by simpa using Nat.ne_of_gt hm, by simpa using hb⟩

theorem exists_isPayload {p : ByteString} (h0 : 0 < p.length) (hmod : p.length % n = 0) :
    ∃ ps, IsPayload n ps ∧ p = ps.flatten := by
  obtain ⟨m, hm⟩ := Nat.dvd_of_mod_eq_zero hmod
  rw [Nat.mul_comm] at hm
  exact ⟨_, isPayload_blocks (Nat.pos_of_mul_pos_right (hm ▸ h0)) hm, (blocks_flatten hm).symm⟩

/-- The concatenation of its blocks is accepted and read as those blocks. -/
theorem IsPayload.accepted {r : Regs} (h : IsPayload (Config.bs r.fam) ps) :
    isWholeBlocks r.blockSize ps.flatten = true ∧ payloadBlocks r.blockSize ps.flatten = ps :=
  ⟨isWholeBlocks_of_length (bs_pos r.fam) (List.length_pos_iff.2 h.nonempty) (flatten_length h.size),
    payloadBlocks_flatten (bs_pos r.fam) h.size⟩

theorem IsPayload.chainOut (h : IsPayload n ps) {m : Nat} {f : ByteString → ByteString}
    (hf : ∀ b, (f b).length = m) (v : ByteString) : IsPayload m (chainOut f v ps) :=
  ⟨List.length_pos_iff.1 ((chainOut_length f v ps).symm ▸ List.length_pos_iff.2 h.nonempty),
    length_of_mem_chainOut hf v ps⟩

theorem IsPayload.getLastD_eq (h : IsPayload n ps) (v w : ByteString) :
    ps.getLastD v = ps.getLastD w := by
  obtain ⟨b, bs, rfl⟩ := List.exists_cons_of_ne_nil h.nonempty
  rfl

theorem IsPayload.length_getLastD (h : IsPayload n ps) (v : ByteString) :
    (ps.getLastD v).length = n := by
  rw [List.getLastD_eq_getLast?, List.getLast?_eq_some_getLast h.nonempty]
  exact h.size _ (List.getLast_mem h.nonempty)

theorem IsPayload.carryIv_append (h : IsPayload n qs) : carryIv (ps ++ qs) = carryIv qs := by
  simp [carryIv, List.getLastD_eq_getLast?, List.getLast?_append,
    List.getLast?_eq_some_getLast h.nonempty]

end

/-! ## The chaining value -/

section
variable (r : Regs)

theorem chainValue_eq_take : r.chainValue = r.iv.data.take (Config.bs r.fam) := slice_zero _ _

/-- A block stored in `IV` is padded with zeros (10_state.md R26). -/
theorem storedBlock_data {n : Nat} (hn : n ≤ 16) {b : ByteString} (hb : b.length = n) :
    (Bytes.ofList 16 b).data = b ++ List.replicate (16 - n) 0 := by
  rw [Bytes.ofList_data (hb ▸ hn), hb]; rfl

/-- A block that is stored in `IV` is the next chaining value (10_state.md R26). -/
theorem chainValue_storeIv {v : ByteString} (hv : v.length = Config.bs r.fam) :
    ({ r with iv := Bytes.ofList 16 v } : Regs).chainValue = v := by
  rw [chainValue_eq_take, storedBlock_data (bs_le r.fam) hv, List.take_left' hv]

/-- The last of the carried blocks is the next chaining value (41_cbc_modes.md R135). -/
theorem chainValue_carryIv {ps : List ByteString} (h : IsPayload (Config.bs r.fam) ps)
    (v : ByteString) : ({ r with iv := carryIv ps } : Regs).chainValue = ps.getLastD v :=
  (chainValue_storeIv r (h.length_getLastD [])).trans (h.getLastD_eq _ _)

/-- The carried `IV` is the last block, padded with zeros (41_cbc_modes.md R135). -/
theorem carryIv_map_range (f : Family) {n : Nat} (hn : 1 ≤ n) {o : Nat → ByteString}
    (ho : (o (n - 1)).length = Config.bs f) :
    (carryIv ((List.range n).map o)).data =
      o (n - 1) ++ List.replicate (16 - Config.bs f) 0 := by
  obtain ⟨m, rfl⟩ := Nat.exists_eq_add_of_le' hn
  have hlast : carryIv ((List.range (m + 1)).map o) = Bytes.ofList 16 (o m) := by
    simp [carryIv, List.range_succ]
  rw [hlast]
  exact storedBlock_data (bs_le f) ho

end

/-! ## What the CBC commands answer and carry -/

/-- The cipher of CBC.OUT under the loaded key: `BCE` in the standard discipline, `BCD` in the legacy one
(41_cbc_modes.md R130, R131, R133). -/
def outCipher (r : Regs) : ByteString → ByteString :=
  (if r.fam = .tdes3 ∨ r.fam = .aes then Config.bce else Config.bcd) r.fam r.loadedKey

/-- The blocks CBC.OUT answers to the blocks `ps` (41_cbc_modes.md R139). -/
def outBlocks (r : Regs) (ps : List ByteString) : List ByteString :=
  chainOut (outCipher r) r.chainValue ps

/-- The blocks CBC.IN answers to the blocks `ps` (41_cbc_modes.md R140). -/
def inBlocks (r : Regs) (ps : List ByteString) : List ByteString :=
  chainIn (Config.bcd r.fam r.loadedKey) r.chainValue ps

theorem outCipher_length (r : Regs) (b : ByteString) : (outCipher r b).length = Config.bs r.fam := by
  unfold outCipher
  split
  · exact bce_length ..
  · exact bcd_length ..

theorem IsPayload.outBlocks {r : Regs} {ps : List ByteString} (h : IsPayload (Config.bs r.fam) ps) :
    IsPayload (Config.bs r.fam) (outBlocks r ps) := h.chainOut (outCipher_length r) r.chainValue

section
variable {r : Regs} {v : ByteString} (hv : v.length = Config.bs r.fam) {ps : List ByteString}
include hv

theorem outBlocks_storeIv : outBlocks { r with iv := Bytes.ofList 16 v } ps =
    chainOut (outCipher r) v ps := congrArg (chainOut (outCipher r) · ps) (chainValue_storeIv r hv)

theorem inBlocks_storeIv : inBlocks { r with iv := Bytes.ofList 16 v } ps =
    chainIn (Config.bcd r.fam r.loadedKey) v ps :=
  congrArg (chainIn (Config.bcd r.fam r.loadedKey) · ps) (chainValue_storeIv r hv)

end

/-- CBC.OUT over two payloads together goes on from the last block it has answered. -/
theorem outBlocks_append {r : Regs} {ps : List ByteString} (h : IsPayload (Config.bs r.fam) ps)
    (qs : List ByteString) : outBlocks r (ps ++ qs) =
      outBlocks r ps ++ outBlocks { r with iv := carryIv (outBlocks r ps) } qs := by
  have hnext := chainValue_carryIv r h.outBlocks r.chainValue
  calc outBlocks r (ps ++ qs)
      = outBlocks r ps ++ chainOut (outCipher r) ((outBlocks r ps).getLastD r.chainValue) qs :=
        chainOut_append ..
    _ = _ := by rw [← hnext]; rfl

/-- CBC.IN over two payloads together goes on from the last block it has taken. -/
theorem inBlocks_append {r : Regs} {ps : List ByteString} (h : IsPayload (Config.bs r.fam) ps)
    (qs : List ByteString) : inBlocks r (ps ++ qs) =
      inBlocks r ps ++ inBlocks { r with iv := carryIv ps } qs := by
  rw [inBlocks, chainIn_append, ← chainValue_carryIv r h]
  rfl

section
variable {s : State} {ps : List ByteString} (hk : s.regs.keyv = true)
  (h : IsPayload (Config.bs s.regs.fam) ps)
include hk h

/-- CBC.OUT answers its blocks and carries the last of them (41_cbc_modes.md R135, R139). -/
theorem cbcOut_answers :
    Answers (exec (.cbcOut ps.flatten) s) s
      { s.regs with iv := carryIv (outBlocks s.regs ps) } (outBlocks s.regs ps).flatten := by
  obtain ⟨hw, hps⟩ := h.accepted
  have hx := answers_of_checkError_none (i := .cbcOut ps.flatten) (s := s)
    (by rw [checkError, if_neg (by simp [hk]), if_neg (by simp [hw])])
  rw [regsAfter, answerData, hps, cbcOutBlocks_run] at hx
  exact hx

/-- Under any parameters CBC.IN answers the blocks of its procedure and carries the last block of
its payload (41_cbc_modes.md R135, R140). -/
theorem cbcInWith_answers (c : Config.Params) :
    Answers (cbcInWith c ps.flatten s) s { s.regs with iv := carryIv ps }
      ((cbcInBlocks c.lrecvChain s.regs ps).run c).flatten := by
  obtain ⟨hw, hps⟩ := h.accepted
  rw [cbcInWith, cbcInProg_run, if_neg (by simp [hk]), if_neg (by simp [hw]), hps]
  rfl

/-- CBC.IN answers its blocks and carries the last block of its payload (41_cbc_modes.md R135, R140). -/
theorem cbcIn_answers :
    Answers (exec (.cbcIn ps.flatten) s) s
      { s.regs with iv := carryIv ps } (inBlocks s.regs ps).flatten := by
  rw [inBlocks, ← params_dec, ← cbcInBlocks_run]
  exact cbcInWith_answers hk h Config.params

end

/-- The two errors of a command that needs the adapter key and a payload of whole blocks
(20_memory.md R52, 60_exceptions.md R262). -/
theorem wholeBlocksCommand_errs {i : Instr} {s : State} {p : ByteString}
    (hi : checkError i s.regs = if s.regs.keyv = false then some .noKey
      else if isWholeBlocks (Config.bs s.regs.fam) p = false then some .badLength else none) :
    (s.regs.keyv = false → Errs (exec i s) s 0x03) ∧
    (s.regs.keyv = true → (p.length = 0 ∨ p.length % Config.bs s.regs.fam ≠ 0) →
      Errs (exec i s) s 0x02) := by
  refine ⟨fun hk => errs_of_checkError (e := .noKey) ?_,
    fun hk hp => errs_of_checkError (e := .badLength) ?_⟩
  · rw [hi, if_pos hk]
  · have hw : isWholeBlocks (Config.bs s.regs.fam) p = false := by
      rw [← Bool.not_eq_true, isWholeBlocks_iff]
      omega
    rw [hi, if_neg (by simp [hk]), if_pos hw]

/-- Settles O35: the blocks answered are `outSeq` from the chaining value on. -/
theorem cbcOutEffect : Obligations.CbcOutEffect := by
  intro s p n arg
  obtain ⟨hkey, hlen⟩ := wholeBlocksCommand_errs (i := .cbcOut p) (s := s) rfl
  refine ⟨fun hk hn hp => ?_, hkey, hlen, errs_of_nonzeroArg s (by decide)⟩
  have hx := cbcOut_answers hk (isPayload_blocks hn hp)
  rw [blocks_flatten hp, outBlocks, blocks_eq_map_range, chainOut_map_range] at hx
  refine ⟨_, _, fun i _ => ?_, carryIv_map_range s.regs.fam hn (outCipher_length _ _), hx⟩
  rw [← loadedKey_eq_take, ← chainValue_eq_take]
  cases i <;> rfl

/-- Settles O36: the blocks answered are chained with the sequence of the chaining value and the payload
blocks. -/
theorem cbcInEffect : Obligations.CbcInEffect := by
  intro s p n arg
  obtain ⟨hkey, hlen⟩ := wholeBlocksCommand_errs (i := .cbcIn p) (s := s) rfl
  refine ⟨fun hk hn hp => ?_, hkey, hlen, errs_of_nonzeroArg s (by decide)⟩
  have hx := cbcIn_answers hk (isPayload_blocks hn hp)
  rw [blocks_flatten hp, inBlocks, blocks_eq_map_range, chainIn_map_range] at hx
  rw [← loadedKey_eq_take, ← chainValue_eq_take]
  refine ⟨blockAt (Config.bs s.regs.fam) p, _, fun _ _ => rfl, carryIv_map_range s.regs.fam hn ?_, hx⟩
  exact length_blockAt hp _ (Nat.sub_lt hn Nat.one_pos)

/-! ## IV.ZERO, IV.LOAD and IV.GET -/

/-- Settles O32: the length is the only check. -/
theorem ivZeroEffect : Obligations.IvZeroEffect := by
  refine fun s p arg => ⟨?_, fun hp => ?_, errs_of_nonzeroArg s (by decide)⟩
  · rintro rfl
    exact ⟨Bytes.zero 16, rfl, answers_of_checkError_none rfl⟩
  · exact errs_of_checkError (i := .ivZero p) (if_pos (mt List.length_eq_zero_iff.1 hp))

/-- Settles O33: IV.LOAD is a command of one block. -/
theorem ivLoadEffect : Obligations.IvLoadEffect := by
  intro s p arg
  obtain ⟨hok, hkey, hlen⟩ := blockCommand_cases (i := .ivLoad p) (s := s) rfl
  exact ⟨fun hk hp => ⟨Bytes.ofList 16 p, storedBlock_data (bs_le s.regs.fam) hp, hok hk hp⟩, hkey,
    hlen, errs_of_nonzeroArg s (by decide)⟩

/-- Settles O34: IV.GET answers the chaining value. -/
theorem ivGetEffect : Obligations.IvGetEffect := by
  refine fun s p arg => ⟨?_, fun hk => ?_, fun hk hp => ?_, errs_of_nonzeroArg s (by decide)⟩
  · rintro hk rfl
    rw [← chainValue_eq_take]
    exact answers_of_checkError_none (i := .ivGet []) (if_neg (by simp [hk]))
  · exact errs_of_checkError (i := .ivGet p) (if_pos hk)
  · exact errs_of_checkError (i := .ivGet p) (e := .badLength)
      ((if_neg (by simp [hk])).trans (if_pos (mt List.length_eq_zero_iff.1 hp)))

/-! ## One block, and the two readings of `LRECV_CHAIN` -/

theorem outCipher_of_standard {r : Regs} (hf : r.fam = .tdes3 ∨ r.fam = .aes) :
    outCipher r = Config.bce r.fam r.loadedKey := by rw [outCipher, if_pos hf]

theorem outCipher_of_legacy {r : Regs} (hf : r.fam = .des ∨ r.fam = .tdes2) :
    outCipher r = Config.bcd r.fam r.loadedKey := by
  rw [outCipher, if_neg (by rcases hf with hf | hf <;> simp [hf])]

/-- Settles O41: XORing with the zero chaining value, before the cipher or after it, changes nothing. -/
theorem legacyDirectionsAgreeOnFirstBlock : Obligations.LegacyDirectionsAgreeOnFirstBlock := by
  intro s p hk hf hp hiv
  have hbs : Config.bs s.regs.fam = 8 := by rcases hf with hf | hf <;> rw [hf] <;> rfl
  have hv : s.regs.chainValue = zeros 8 := by rw [chainValue_eq_take, hiv, hbs]; rfl
  have hps : IsPayload (Config.bs s.regs.fam) [p] := (hp.trans hbs.symm) ▸ isPayload_singleton p
  have ho : (Config.bcd s.regs.fam s.regs.loadedKey p).length = 8 := (bcd_length ..).trans hbs
  have hout : outBlocks s.regs [p] = [Config.bcd s.regs.fam s.regs.loadedKey p] := by
    rw [outBlocks, outCipher_of_legacy hf, hv, chainOut, xorBytes_zeros hp, chainOut]
  have hin : inBlocks s.regs [p] = [Config.bcd s.regs.fam s.regs.loadedKey p] := by
    rw [inBlocks, hv, chainIn, xorBytes_zeros ho, chainIn]
  have hx := cbcOut_answers hk hps
  have hy := cbcIn_answers hk hps
  rw [hout, List.flatten_singleton, List.flatten_singleton] at hx
  rw [hin, List.flatten_singleton, List.flatten_singleton] at hy
  rw [← loadedKey_eq_take]
  exact ⟨_, _, _, rfl, storedBlock_data (by decide) ho, storedBlock_data (by decide) hp, hx, hy⟩

/-- Under either reading the first block answered is XORed with the chaining value, and no other block is
answered to a payload of one block (41_cbc_modes.md R132, R134). -/
theorem cbcInBlocks_cons (c : Config.Params) (chain : Config.LrecvChain) (r : Regs) (b : ByteString)
    (ps : List ByteString) :
    ∃ rest, (cbcInBlocks chain r (b :: ps)).run c =
        xorBytes (c.dec r.fam r.loadedKey b) r.chainValue :: rest ∧ (ps = [] → rest = []) := by
  unfold cbcInBlocks
  split
  · rw [stdIn, CipherProg.run_bind, CipherProg.run_map]
    exact ⟨_, rfl, by rintro rfl; rfl⟩
  · rw [legRecv, CipherProg.run_bind, CipherProg.run_map]
    exact ⟨_, rfl, by rintro rfl; rfl⟩

/-- Settles O42: neither reading decides the block carried or the first block answered, and the standard
discipline reads neither (`cbcInBlocks_run_of_ciphered`). -/
theorem lrecvChainReadingsAgree : Obligations.LrecvChainReadingsAgree := by
  intro c s p hk h0 hmod
  obtain ⟨ps, hps, rfl⟩ := exists_isPayload h0 hmod
  have hd := cbcInWith_answers hk hps { c with lrecvChain := .prevCiphered }
  have he := cbcInWith_answers hk hps { c with lrecvChain := .prevPlain }
  refine ⟨_, _, _, hd, he, ?_⟩
  rw [← loadedKey_eq_take, ← chainValue_eq_take]
  obtain ⟨b, ps, rfl⟩ := List.exists_cons_of_ne_nil hps.nonempty
  have hb : b.length = Config.bs s.regs.fam := hps.size b List.mem_cons_self
  obtain ⟨cs, hcs, hcs0⟩ :=
    cbcInBlocks_cons { c with lrecvChain := .prevCiphered } .prevCiphered s.regs b ps
  obtain ⟨qs, hqs, hqs0⟩ :=
    cbcInBlocks_cons { c with lrecvChain := .prevPlain } .prevPlain s.regs b ps
  refine ⟨⟨_, cs.flatten, qs.flatten, congrArg List.flatten hcs, congrArg List.flatten hqs, ?_⟩, ?_⟩
  · rw [List.flatten_cons, List.take_left' hb]
  · rintro (hone | hf)
    · have hlen : (b :: ps).length * Config.bs s.regs.fam = Config.bs s.regs.fam :=
        (flatten_length hps.size).symm.trans hone
      have hps0 : ps = [] := by simpa using (Nat.mul_eq_right (bs_pos s.regs.fam).ne').1 hlen
      rw [hcs, hqs, hcs0 hps0, hqs0 hps0]
    · rw [cbcInBlocks_run_of_ciphered (.inr hf), cbcInBlocks_run_of_ciphered (.inr hf)]

end Sys2Proof.Machine
end

