-- ==== Sys2Proof/Proofs/CbcSequences.lean ====
section
/-! PROOF. CBC commands in a row: over two payloads (41_cbc_modes.md R142), and the two directions one after
the other from the same chaining value (R141). -/

namespace Sys2Proof.Machine

/-- Settles O40: both the blocks answered and the block carried over `ps ++ qs` are those over `ps`, then
those over `qs` from the chaining value the first command leaves. -/
theorem cbcChainsAcrossCommands : Obligations.CbcChainsAcrossCommands := by
  intro s p q i hi hk hp0 hp hq0 hq
  obtain ⟨ps, hps, rfl⟩ := exists_isPayload hp0 hp
  obtain ⟨qs, hqs, rfl⟩ := exists_isPayload hq0 hq
  rcases hi with rfl | rfl
  · have h1 := cbcOut_answers hk hps
    have h2 := cbcOut_answers
      (s := s.reply { s.regs with iv := carryIv (outBlocks s.regs ps) } (outBlocks s.regs ps).flatten)
      hk hqs
    have h12 := cbcOut_answers hk (hps.append hqs)
    rw [outBlocks_append hps, List.flatten_append, List.flatten_append,
      (hqs.outBlocks (r := { s.regs with iv := carryIv (outBlocks s.regs ps) })).carryIv_append] at h12
    exact ⟨_, _, _, _, _, h1, h1, h2, h12⟩
  · have h1 := cbcIn_answers hk hps
    have h2 := cbcIn_answers
      (s := s.reply { s.regs with iv := carryIv ps } (inBlocks s.regs ps).flatten) hk hqs
    have h12 := cbcIn_answers hk (hps.append hqs)
    rw [inBlocks_append hps, List.flatten_append, List.flatten_append, hqs.carryIv_append] at h12
    exact ⟨_, _, _, _, _, h1, h1, h2, h12⟩

section
variable {s : State} {v : ByteString} {ps : List ByteString} (hk : s.regs.keyv = true)
  (hv : v.length = Config.bs s.regs.fam) (h : IsPayload (Config.bs s.regs.fam) ps)
include hk hv h

/-- IV.LOAD with one block, then CBC.OUT: the blocks are chained from that block on, and no register but
`IV` changes. -/
theorem ivLoad_cbcOut : ∃ (s1 s2 : State) (w : Bytes 16),
    exec (.ivLoad v) s = .next s1 ∧ exec (.cbcOut ps.flatten) s1 = .next s2 ∧
    s2.responses = s1.responses ++ [responseFrame 0 (chainOut (outCipher s.regs) v ps).flatten] ∧
    s2.regs = { s.regs with iv := w } := by
  have hx := cbcOut_answers (s := s.reply { s.regs with iv := Bytes.ofList 16 v } []) hk h
  refine ⟨_, _, _, (blockCommand_cases (i := .ivLoad v) rfl).1 hk hv, hx, ?_, rfl⟩
  rw [← outBlocks_storeIv hv]
  rfl

/-- IV.LOAD with one block, then CBC.IN: the blocks are chained from that block on. -/
theorem ivLoad_cbcIn : ∃ s1 s2 : State,
    exec (.ivLoad v) s = .next s1 ∧ exec (.cbcIn ps.flatten) s1 = .next s2 ∧
    s2.responses = s1.responses ++
      [responseFrame 0 (chainIn (Config.bcd s.regs.fam s.regs.loadedKey) v ps).flatten] := by
  have hx := cbcIn_answers (s := s.reply { s.regs with iv := Bytes.ofList 16 v } []) hk h
  refine ⟨_, _, (blockCommand_cases (i := .ivLoad v) rfl).1 hk hv, hx, ?_⟩
  rw [← inBlocks_storeIv hv]
  rfl

/-- The two directions one after the other from the same chaining value. -/
theorem ivLoad_cbcOut_ivLoad_cbcIn : ∃ s1 s2 s3 s4 : State,
    exec (.ivLoad v) s = .next s1 ∧ exec (.cbcOut ps.flatten) s1 = .next s2 ∧
    s2.responses = s1.responses ++ [responseFrame 0 (chainOut (outCipher s.regs) v ps).flatten] ∧
    exec (.ivLoad v) s2 = .next s3 ∧
    exec (.cbcIn (chainOut (outCipher s.regs) v ps).flatten) s3 = .next s4 ∧
    s4.responses = s3.responses ++ [responseFrame 0
      (chainIn (Config.bcd s.regs.fam s.regs.loadedKey) v
        (chainOut (outCipher s.regs) v ps)).flatten] := by
  obtain ⟨s1, s2, w, h1, h2, hr, hregs⟩ := ivLoad_cbcOut hk hv h
  have hin := ivLoad_cbcIn (s := s2) (v := v) (ps := chainOut (outCipher s.regs) v ps)
  rw [hregs] at hin
  obtain ⟨s3, s4, h3, h4, hr4⟩ := hin hk hv (h.chainOut (outCipher_length s.regs) v)
  exact ⟨s1, s2, s3, s4, h1, h2, hr, h3, h4, hr4⟩

end

/-- Settles O37: decryption undoes encryption, block by block (`chainIn_chainOut`). -/
theorem standardCbcRoundTrip : Obligations.StandardCbcRoundTrip := by
  intro s v p n hk hf hv hn hp
  obtain ⟨s1, s2, s3, s4, h1, h2, hr2, h3, h4, hr4⟩ :=
    ivLoad_cbcOut_ivLoad_cbcIn hk hv (isPayload_blocks hn hp)
  have hinv : ∀ b : ByteString, b.length = Config.bs s.regs.fam →
      Config.bcd s.regs.fam s.regs.loadedKey (outCipher s.regs b) = b := by
    rw [outCipher_of_standard hf]
    exact fun b hb => bcd_bce hb
  rw [blocks_flatten hp] at h2
  rw [chainIn_chainOut (outCipher_length s.regs) hinv hv (length_of_mem_blocks hp),
    blocks_flatten hp] at hr4
  exact ⟨_, s1, s2, s3, s4, h1, h2, hr2, h3, h4, hr4⟩

/-- Settles O38: the blocks `C_i` are `outSeq` under `BCD`, which `BCE` undoes. -/
theorem legacyPairComposition : Obligations.LegacyPairComposition := by
  intro s v p n hk hf hv hn hp
  let c := outSeq (Config.bcd s.regs.fam s.regs.loadedKey) v (blockAt (Config.bs s.regs.fam) p)
  have hc : ∀ i, (c i).length = Config.bs s.regs.fam := fun
    | 0 => hv
    | _ + 1 => bcd_length ..
  obtain ⟨s1, s2, s3, s4, h1, h2, hr2, h3, h4, hr4⟩ :=
    ivLoad_cbcOut_ivLoad_cbcIn hk hv (isPayload_blocks hn hp)
  rw [blocks_flatten hp] at h2
  rw [outCipher_of_legacy hf, blocks_eq_map_range, chainOut_map_range] at hr2 h4 hr4
  rw [chainIn_outSeq] at hr4
  refine ⟨c, s1, s2, s3, s4, _, rfl, loadedKey_eq_take _, h1, h2, hr2, fun i hi => ?_, h3, h4, hr4⟩
  have hb : (blockAt (Config.bs s.regs.fam) p i).length = (c i).length :=
    (length_blockAt hp i hi).trans (hc i).symm
  have hci : Config.bce s.regs.fam s.regs.loadedKey (c (i + 1)) =
      xorBytes (blockAt (Config.bs s.regs.fam) p i) (c i) :=
    bce_bcd ((xorBytes_length hb).trans (length_blockAt hp i hi))
  rw [hci, xorBytes_cancel hb]
  rfl

/-- Settles O39: `BCD` gives back `P_i xor C_(i-1)`, from which the XOR takes `C_(i-1)` off. -/
theorem legacyReceiveUndoesPartner : Obligations.LegacyReceiveUndoesPartner := by
  intro s v p n c hk _ hv hn hp hc0 hc
  rw [← loadedKey_eq_take] at hc
  subst hc0
  have hlen : ∀ i ≤ n, (c i).length = Config.bs s.regs.fam := fun
    | 0, _ => hv
    | i + 1, hi => by rw [hc i hi, bce_length]
  obtain ⟨s1, s2, h1, h2, hr⟩ :=
    ivLoad_cbcIn hk hv (isPayload_map_range hn fun i hi => hlen (i + 1) hi)
  have hplain : ∀ i < n, xorBytes (Config.bcd s.regs.fam s.regs.loadedKey (c (i + 1))) (c i) =
      blockAt (Config.bs s.regs.fam) p i := by
    intro i hi
    have hb : (blockAt (Config.bs s.regs.fam) p i).length = (c i).length :=
      (length_blockAt hp i hi).trans (hlen i hi.le).symm
    have hdec : Config.bcd s.regs.fam s.regs.loadedKey (c (i + 1)) =
        xorBytes (blockAt (Config.bs s.regs.fam) p i) (c i) := by
      rw [hc i hi]
      exact bcd_bce ((xorBytes_length hb).trans (length_blockAt hp i hi))
    rw [hdec, xorBytes_cancel hb]
  rw [chainIn_map_range_succ, List.map_congr_left fun i hi => hplain i (List.mem_range.1 hi),
    ← blocks_eq_map_range, blocks_flatten hp] at hr
  exact ⟨s1, s2, h1, h2, hr⟩

end Sys2Proof.Machine
end

