-- ==== Sys2Proof/Proofs/Doubling.lean ====
section
/-! PROOF. The doubling of the CMAC engine (42_cmac_engine.md R171, R173), byte by byte and on the 128-bit
number it stands for. On numbers the shift keeps twice the value but for the top bit, and the constant is odd,
so that the doubled value tells whether the top bit was set. -/

namespace Sys2Proof.Machine

/-! ## Byte strings as numbers -/

theorem beNumber_snoc (l : ByteString) (b : Byte) :
    beNumber (l ++ [b]) = 256 * beNumber l + b.toNat := by
  simp [beNumber]

theorem beNumber_cons (b : Byte) (l : ByteString) :
    beNumber (b :: l) = b.toNat * 256 ^ l.length + beNumber l := by
  induction l using List.reverseRecOn with
  | nil => simp [beNumber]
  | append_singleton l c ih =>
    rw [← List.cons_append, beNumber_snoc, ih, beNumber_snoc, List.length_append,
      List.length_singleton]
    ring

theorem beNumber_lt (l : ByteString) : beNumber l < 256 ^ l.length := by
  induction l using List.reverseRecOn with
  | nil => exact Nat.one_pos
  | append_singleton l b ih =>
    have hb := b.isLt
    rw [beNumber_snoc, List.length_append, List.length_singleton, Nat.pow_succ]
    omega

/-- A string is determined by its length and its number. -/
theorem eq_of_beNumber_eq {l m : ByteString} (hlen : l.length = m.length)
    (h : beNumber l = beNumber m) : l = m := by
  induction l using List.reverseRecOn generalizing m with
  | nil => exact (List.length_eq_zero_iff.1 hlen.symm).symm
  | append_singleton l b ih =>
    obtain rfl | ⟨m, c, rfl⟩ := m.eq_nil_or_concat'
    · simp at hlen
    have hb := b.isLt
    have hc := c.isLt
    rw [beNumber_snoc, beNumber_snoc] at h
    rw [ih (by simpa using hlen) (by omega), BitVec.eq_of_toNat_eq (x := b) (y := c) (by omega)]

theorem bytes_eq_of_beNumber_eq {n : Nat} {a b : Bytes n} (h : beNumber a.data = beNumber b.data) :
    a = b :=
  Bytes.eq_of_data (eq_of_beNumber_eq (a.len.trans b.len.symm) h)

/-! ## The shift and the constant on numbers -/

/-- A shifted byte takes in the next byte's top bit and gives off its own. -/
theorem two_mul_byte (b c : Byte) :
    2 * b.toNat + (c >>> 7).toNat = 256 * (b >>> 7).toNat + ((b <<< 1) ||| (c >>> 7)).toNat := by
  have hb := b.isLt
  have hc := c.isLt
  have hor : 2 ^ 1 * (b.toNat % 128) + c.toNat / 128 = 2 ^ 1 * (b.toNat % 128) ||| c.toNat / 128 :=
    Nat.two_pow_add_eq_or_of_lt (by omega) _
  have hshift : b.toNat <<< 1 % 256 = 2 ^ 1 * (b.toNat % 128) := by
    rw [Nat.shiftLeft_eq]; omega
  have hdiv (d : Byte) : (d >>> 7).toNat = d.toNat / 128 := by
    rw [BitVec.toNat_ushiftRight, Nat.shiftRight_eq_div_pow]
  rw [BitVec.toNat_or, BitVec.toNat_shiftLeft, hdiv, hdiv, hshift, ← hor]
  omega

/-- Twice a string's number is the bit shifted out, then the shifted string (42_cmac_engine.md R171). -/
theorem two_mul_beNumber (l : ByteString) :
    2 * beNumber l = (l.headD 0 >>> 7).toNat * 256 ^ l.length + beNumber (shiftLeftOne l) := by
  match l with
  | [] => rfl
  | [b] =>
    have := two_mul_byte b 0
    simpa [beNumber, shiftLeftOne, Nat.mul_comm] using this
  | b :: c :: r =>
    have ih := two_mul_beNumber (c :: r)
    have hb := two_mul_byte b c
    rw [List.headD_cons] at ih ⊢
    rw [shiftLeftOne, beNumber_cons b, beNumber_cons (_ ||| _), shiftLeftOne_length,
      List.length_cons (a := b), Nat.pow_succ]
    linear_combination ih + 256 ^ (c :: r).length * hb

theorem xorLast_snoc (k : Byte) (l : ByteString) (b : Byte) :
    xorLast k (l ++ [b]) = l ++ [b ^^^ k] := by
  match l with
  | [] => rfl
  | [_] => rfl
  | a :: c :: r => exact congrArg (a :: ·) (xorLast_snoc k (c :: r) b)

/-- XORing the last byte is XORing the number. -/
theorem beNumber_xorLast (k : Byte) {l : ByteString} (h : l ≠ []) :
    beNumber (xorLast k l) = beNumber l ^^^ k.toNat := by
  obtain ⟨l, b, rfl⟩ := l.eq_nil_or_concat'.resolve_left h
  have hb := b.isLt
  have hk := k.isLt
  have hdiv : (256 * beNumber l + b.toNat ^^^ k.toNat) / 2 ^ 8 = beNumber l := by
    rw [Nat.xor_div_two_pow, Nat.div_eq_of_lt hk, Nat.xor_zero]; omega
  have hmod : (256 * beNumber l + b.toNat ^^^ k.toNat) % 2 ^ 8 = b.toNat ^^^ k.toNat := by
    rw [Nat.xor_mod_two_pow, Nat.mod_eq_of_lt hk,
      show (256 * beNumber l + b.toNat) % 2 ^ 8 = b.toNat by omega]
  rw [xorLast_snoc, beNumber_snoc, beNumber_snoc, BitVec.toNat_xor]
  omega

/-! ## The doubling -/

/-- The bit shifted out is set when the number is at least `2^127`. -/
theorem topBit_eq_one_iff (x : Bytes 16) :
    x.data.headD 0 >>> 7 = 1 ↔ 2 ^ 127 ≤ beNumber x.data := by
  have hnum := two_mul_beNumber x.data
  have hlt := beNumber_lt x.data
  have hshift := beNumber_lt (shiftLeftOne x.data)
  rw [shiftLeftOne_length] at hshift
  rw [x.len] at hnum hlt hshift
  rw [← BitVec.toNat_inj]
  change _ = 1 ↔ _
  omega

theorem beNumber_shiftLeftOne (x : Bytes 16) :
    beNumber (shiftLeftOne x.data) = 2 * beNumber x.data % 2 ^ 128 := by
  have hnum := two_mul_beNumber x.data
  have hshift := beNumber_lt (shiftLeftOne x.data)
  rw [shiftLeftOne_length] at hshift
  rw [x.len] at hnum hshift
  omega

/-- The doubling on numbers (42_cmac_engine.md R171). -/
theorem beNumber_dbl (x : Bytes 16) :
    beNumber (dbl x).data =
      2 * beNumber x.data % 2 ^ 128 ^^^ (if 2 ^ 127 ≤ beNumber x.data then 0x87 else 0) := by
  have hne : shiftLeftOne x.data ≠ [] := by simp [← List.length_pos_iff]
  rw [dbl_data, ← beNumber_shiftLeftOne]
  by_cases htop : x.data.headD 0 >>> 7 = 1
  · rw [if_pos htop, if_pos ((topBit_eq_one_iff x).1 htop), beNumber_xorLast _ hne]; rfl
  · rw [if_neg htop, if_neg (mt (topBit_eq_one_iff x).2 htop), Nat.xor_zero]

/-- The doubling changes the shifted string in its last byte only, and there if the top bit was set. -/
theorem dbl_getD (x : Bytes 16) {i : Nat} (hi : i < 16) :
    (dbl x).data.getD i 0 = (shiftLeftOne x.data).getD i 0 ^^^
      (if i = 15 ∧ x.data.headD 0 >>> 7 = 1 then 0x87 else 0#8) := by
  rw [dbl_data]
  by_cases htop : x.data.headD 0 >>> 7 = 1
  · have hlen : (shiftLeftOne x.data).length = 16 := by simp
    rw [if_pos htop, xorLast_getD _ _ (by omega), hlen]
    by_cases h15 : i = 15
    · rw [if_pos (by omega), if_pos ⟨h15, htop⟩]
    · rw [if_neg (by omega), if_neg (mt And.left h15), BitVec.xor_zero]
  · rw [if_neg htop, if_neg (mt And.right htop), BitVec.xor_zero]

/-- Settles O43. -/
theorem doublingShiftsAndReduces : Obligations.DoublingShiftsAndReduces := by
  intro x
  have hbyte {i : Nat} (hi : i < 16) := shiftLeftOne_getD x.data (i := i) (by simpa using hi)
  refine ⟨fun i hi => ?_, ?_, beNumber_dbl x⟩
  · rw [dbl_getD x (by omega), hbyte (by omega), if_neg (by omega), BitVec.xor_zero]
  · have hend : x.data.getD 16 0 = 0 := List.getD_eq_default _ 0 (by simp)
    rw [dbl_getD x (by omega), hbyte (by omega), hend, List.headD_eq_getD]
    simp

/-- The doubling is injective: the constant is odd and the shifted number even, so that the top bit can be
read off the last bit. -/
theorem dbl_injective : Function.Injective dbl := by
  intro x y h
  have hx := beNumber_lt x.data
  have hy := beNumber_lt y.data
  rw [Bytes.length_data] at hx hy
  have hd : beNumber (dbl x).data = beNumber (dbl y).data := by rw [h]
  rw [beNumber_dbl, beNumber_dbl] at hd
  have hpar := congrArg (· % 2) hd
  simp only [Nat.xor_mod_two_eq] at hpar
  apply bytes_eq_of_beNumber_eq
  split_ifs at hd hpar
  · have := Nat.xor_left_injective hd; omega
  · omega
  · omega
  · have := Nat.xor_left_injective hd; omega

/-- There are finitely many strings of `n` bytes. -/
theorem finite_bytes (n : Nat) : Finite (Bytes n) :=
  have hlt (x : Bytes n) : beNumber x.data < 256 ^ n := (beNumber_lt x.data).trans_eq (by rw [x.len])
  Finite.of_injective (fun x => (⟨beNumber x.data, hlt x⟩ : Fin (256 ^ n)))
    fun _ _ h => bytes_eq_of_beNumber_eq (congrArg Fin.val h)

/-- Settles O44: on a finite set an injection is a bijection, and `dbl (dbl 1) = 4` is not `dbl 1 = 2`. -/
theorem doublingIsBijective : Obligations.DoublingIsBijective := by
  have := finite_bytes 16
  exact ⟨Finite.injective_iff_bijective.1 dbl_injective, by decide,
    ⟨zeros 15 ++ [1], rfl⟩, by decide⟩

end Sys2Proof.Machine
end

