-- ==== Sys2Proof/Proofs/CmacCommands.lean ====
section
/-! PROOF. What the commands of the CMAC unit do (42_cmac_engine.md R172, R174 to R176, R179): each part of a
command's effect is read off its checks, its registers and its data (Proofs/CommandParts.lean). -/

namespace Sys2Proof.Machine

/-! ## Commands that answer -/

/-- With an accepted length CMAC.FINAL checks the key, then the payload (60_exceptions.md R262). -/
theorem checkError_cmacFinal {n : Byte} (hn : n.toNat ≤ 16) (p : ByteString) (r : Regs) :
    checkError (.cmacFinal n p) r =
      if r.cinit = false then some .notInitialized
      else if p.length ≠ 0 then some .badLength else none := if_neg (Nat.not_lt.2 hn)

section
variable {s : State}

/-- CMAC.INIT with 16 bytes installs the key (42_cmac_engine.md R172). -/
theorem cmacInit_answers (ck : Bytes 16) :
    Answers (exec (.cmacInit 3 ck.data) s) s ((s.regs.installCmacKey ck).run Config.params) [] := by
  have h := answers_of_checkError_none (i := .cmacInit 3 ck.data) (s := s)
    (if_neg (by simp [familyCode]))
  rwa [regsAfter, Bytes.ofList_self] at h

section
variable (hi : s.regs.cinit = true)
include hi

/-- CMAC.UPDATE feeds its payload (42_cmac_engine.md R174). -/
theorem cmacUpdate_answers (p : ByteString) :
    Answers (exec (.cmacUpdate p) s) s ((absorb s.regs p).run Config.params) [] :=
  answers_of_checkError_none (i := .cmacUpdate p) (if_neg (by simp [hi]))

/-- CMAC.FINAL answers the first bytes of the MAC and starts a message (42_cmac_engine.md R176). -/
theorem cmacFinal_answers {n : Byte} (hn : n.toNat ≤ 16) :
    Answers (exec (.cmacFinal n []) s) s s.regs.restartMessage
      ((Config.bce .aes s.regs.ck.data (xorBytes s.regs.x.data (lastBlock s.regs))).take
        (if n = 0 then 16 else n.toNat)) := by
  refine answers_of_checkError_none (i := .cmacFinal n []) ?_
  rw [checkError_cmacFinal hn, if_neg (by simp [hi])]
  rfl

end
end

/-- Settles O45. -/
theorem cmacInitEffect : Obligations.CmacInitEffect := by
  refine fun s t p => ⟨?_, fun h => errs_of_checkError (i := .cmacInit t p) (if_pos h)⟩
  rintro rfl hp
  exact ⟨⟨p, hp⟩, Bytes.ofList 16 (Config.bce .aes p (zeros 16)), Bytes.zero 16, rfl,
    Bytes.ofList_data_of_length (bce_length ..), rfl, cmacInit_answers ⟨p, hp⟩⟩

/-- A payload of one byte is one turn of the loop (42_cmac_engine.md R174). -/
theorem absorb_singleton_run (c : Config.Params) (r : Regs) (b : Byte) :
    (absorb r [b]).run c = (absorbByte r b).run c := absorb_cons_run c r b []

/-- Settles O46: a byte that finds room and a byte that finds a full block are the two cases of
`absorbByte`, and payloads compose by `absorb_append_run`. -/
theorem cmacUpdateEffect : Obligations.CmacUpdateEffect := by
  refine fun s p q b arg => ⟨fun hi => ⟨cmacUpdate_answers hi [], fun n hn => ?_, fun hfull => ?_, ?_⟩,
    fun hi => errs_of_checkError (i := .cmacUpdate p) (if_pos hi), errs_of_nonzeroArg s (by decide)⟩
  · have hroom : s.regs.blen ≠ 16 := by rintro h; have := n.isLt; rw [h] at hn; omega
    have hb := cmacUpdate_answers hi [b]
    rw [absorb_singleton_run, absorbByte_of_room b hroom] at hb
    obtain rfl : n = s.regs.blen + 1 := Fin.ext (hn.trans (blen_succ_val hroom).symm)
    exact ⟨_, rfl, hb⟩
  · have hb := cmacUpdate_answers hi [b]
    rw [absorb_singleton_run, absorbByte_of_full _ b (Fin.ext hfull)] at hb
    exact ⟨_, _, Bytes.ofList_data_of_length (bce_length ..), rfl, hb⟩
  · have hp := cmacUpdate_answers hi p
    have hpq := cmacUpdate_answers hi (p ++ q)
    rw [absorb_append_run] at hpq
    exact ⟨_, _, _, hp, hp, cmacUpdate_answers (s := s.reply _ []) ((absorb_cinit ..).trans hi) q, hpq⟩

/-- Settles O48: `lastBlock` has a case for a full block held and one for any other. -/
theorem cmacFinalEffect : Obligations.CmacFinalEffect := by
  refine fun s n p => ⟨?_, fun hn => ?_, fun hn hi => ?_, fun hn hi hp => ?_, fun hn hp => ?_⟩
  · rintro hn hi rfl
    refine ⟨lastBlock s.regs, Bytes.zero 16, fun h => if_pos (Fin.ext h), fun h => ?_, rfl,
      cmacFinal_answers hi hn⟩
    rw [lastBlock, if_neg (mt (congrArg Fin.val) h), slice_zero, List.append_assoc]
    rfl
  · exact errs_of_checkError (i := .cmacFinal n p) (if_pos hn)
  · refine errs_of_checkError (i := .cmacFinal n p) (e := .notInitialized) ?_
    rw [checkError_cmacFinal hn, if_pos hi]
  · refine errs_of_checkError (i := .cmacFinal n p) (e := .badLength) ?_
    rw [checkError_cmacFinal hn, if_neg (by simp [hi]),
      if_pos (mt List.length_eq_zero_iff.1 hp)]
  · exact (reservedEncodingsRefused s 0x32 n p hp).2 (.inr (.inr ⟨rfl, hn⟩))

/-- Settles O50: by the invariant the subkeys held are those of the key held (10_state.md R31). -/
theorem finalRearmsLikeInit : Obligations.FinalRearmsLikeInit := by
  intro s s1 s2 n hinv hi hn h1 h2
  obtain ⟨hk1, hk2⟩ := hinv.regs.subkeys hi
  have hregs : s.regs.restartMessage = (s.regs.installCmacKey s.regs.ck).run Config.params := by
    rw [Regs.restartMessage, hi, hk1, hk2]
    rfl
  rw [cmacFinal_answers hi hn] at h1
  rw [cmacInit_answers] at h2
  cases h1
  cases h2
  exact hregs

end Sys2Proof.Machine
end

