-- ==== Sys2Proof/Proofs/CmacMessages.lean ====
section
/-! PROOF. A message fed to the CMAC unit after CMAC.INIT: the registers it leaves (10_state.md R34) and
the MAC that CMAC.FINAL then answers (42_cmac_engine.md R178) are functions of the key and of the whole
message. CMAC.UPDATE commands in a row feed the concatenation of their payloads, whose closed form is
`MessageHeld` (Laws/Cmac.lean). -/

namespace Sys2Proof.Machine

/-- CMAC.UPDATE commands in a row feed the concatenation of their payloads (42_cmac_engine.md R174). -/
theorem execAll_cmacUpdates (ps : List ByteString) {s : State} (hi : s.regs.cinit = true) :
    ∃ s1, execAll (ps.map .cmacUpdate) s = .next s1 ∧
      s1.regs = (absorb s.regs ps.flatten).run Config.params := by
  induction ps generalizing s with
  | nil => exact ⟨s, rfl, rfl⟩
  | cons p ps ih =>
    let t := s.reply ((absorb s.regs p).run Config.params) []
    obtain ⟨s1, hs1, hregs⟩ := ih (s := t) ((absorb_cinit ..).trans hi)
    refine ⟨s1, ?_, ?_⟩
    · rw [List.map_cons, execAll, cmacUpdate_answers hi p]
      exact hs1
    · rw [hregs, List.flatten_cons, absorb_append_run]
      rfl

/-- After CMAC.INIT and CMAC.UPDATE commands the registers hold the message in closed form, under the key
and its subkeys, and no register of another unit has changed. -/
theorem execAll_message (s : State) (ck : Bytes 16) (ps : List ByteString) :
    ∃ s1, execAll (.cmacInit 3 ck.data :: ps.map .cmacUpdate) s = .next s1 ∧
      MessageHeld (Config.bce .aes ck.data) ps.flatten s1.regs ∧
      s1.regs = { s.regs with
        cinit := true, ck := ck, k1 := subkey1 Config.params ck, k2 := subkey2 Config.params ck
        x := s1.regs.x, buf := s1.regs.buf, blen := s1.regs.blen } := by
  let t := s.reply ((s.regs.installCmacKey ck).run Config.params) []
  obtain ⟨s1, hs1, hregs⟩ := execAll_cmacUpdates ps (s := t) rfl
  refine ⟨s1, ?_, ?_, ?_⟩
  · rw [execAll, cmacInit_answers ck]
    exact hs1
  · rw [hregs]
    exact messageHeld_absorb (c := Config.params) (r := t.regs) (fun b => bce_length ..) rfl rfl rfl _
  · rw [hregs, absorb_eq]
    rfl

/-- The bytes of the message that are held back: its last block, full or not. -/
def heldBytes (m : ByteString) : ByteString := m.drop (16 * ((m.length - 1) / 16))

section
variable {enc : ByteString → ByteString} {m : ByteString} {r : Regs} (h : MessageHeld enc m r)
include h

theorem MessageHeld.length_heldBytes : (heldBytes m).length = r.blen.val := by
  rw [heldBytes, List.length_drop, h.blen]

/-- `lastblock()` of a full last block (42_cmac_engine.md R175, R178). -/
theorem MessageHeld.lastBlock_of_full (hfull : (heldBytes m).length = 16) :
    lastBlock r = xorBytes (heldBytes m) r.k1.data := by
  have hb : r.blen.val = 16 := h.length_heldBytes.symm.trans hfull
  rw [lastBlock, if_pos (Fin.ext hb), h.buf, hb]
  exact congrArg (xorBytes · _) (List.append_nil _)

/-- `lastblock()` of a partial or empty last block (42_cmac_engine.md R175, R178). -/
theorem MessageHeld.lastBlock_of_partial (hpart : (heldBytes m).length ≠ 16) :
    lastBlock r = xorBytes (heldBytes m ++ [0x80] ++ List.replicate (15 - (heldBytes m).length) 0)
      r.k2.data := by
  have hb := h.length_heldBytes
  have hne : r.blen ≠ 16 := fun e => hpart (hb.trans (congrArg Fin.val e))
  have hheld : slice 0 r.blen.val r.buf.data = heldBytes m := by
    rw [slice_zero, h.buf]
    exact List.take_left' hb
  rw [lastBlock, if_neg hne, hheld, hb, List.append_assoc]
  rfl

end

/-- Settles O47: the registers after CMAC.INIT are the start of a message, and every byte fed keeps the
closed form (`MessageHeld.snoc`). -/
theorem messageStateClosedForm : Obligations.MessageStateClosedForm := by
  intro s key ps hkey
  obtain ⟨ck, rfl⟩ : ∃ ck : Bytes 16, ck.data = key := ⟨⟨key, hkey⟩, rfl⟩
  obtain ⟨s1, hs1, hheld, hregs⟩ := execAll_message s ck ps
  refine ⟨s1, macChain (Config.bce .aes ck.data) ps.flatten, ck,
    Bytes.ofList 16 (Config.bce .aes ck.data (zeros 16)), _, _, _, hs1, rfl,
    Bytes.ofList_data_of_length (bce_length ..), rfl, fun i _ => ?_, hheld.x, hheld.blen, hheld.buf,
    hregs⟩
  rw [macChain, xorBytes_comm]

/-- Settles O49: CMAC.FINAL works on the registers of the closed form, whose held bytes are the last
block. -/
theorem macIsClosedFormOfMessage : Obligations.MacIsClosedFormOfMessage := by
  intro s key ps n hkey hn
  obtain ⟨ck, rfl⟩ : ∃ ck : Bytes 16, ck.data = key := ⟨⟨key, hkey⟩, rfl⟩
  obtain ⟨s1, hs1, hheld, hregs⟩ := execAll_message s ck ps
  have hi : s1.regs.cinit = true := by rw [hregs]
  have hck : s1.regs.ck = ck := by rw [hregs]
  have hk1 : s1.regs.k1 = subkey1 Config.params ck := by rw [hregs]
  have hk2 : s1.regs.k2 = subkey2 Config.params ck := by rw [hregs]
  have hmac := cmacFinal_answers hi hn
  rw [hck, hheld.x] at hmac
  refine ⟨s1, _, Bytes.ofList 16 (Config.bce .aes ck.data (zeros 16)),
    macChain (Config.bce .aes ck.data) ps.flatten, heldBytes ps.flatten, lastBlock s1.regs, hs1,
    Bytes.ofList_data_of_length (bce_length ..), rfl, fun _ _ => rfl, rfl, fun hfull => ?_,
    fun hpart => ?_, hmac⟩
  · rw [hheld.lastBlock_of_full hfull, hk1]
    rfl
  · rw [hheld.lastBlock_of_partial hpart, hk2]
    rfl

end Sys2Proof.Machine
end

