-- ==== Sys2Proof/Proofs/UnitIndependence.lean ====
section
/-! PROOF. The adapter and CBC units and the CMAC unit are independent (42_cmac_engine.md R180). A command of
one unit writes no register of the other (`commandsWriteOnlyTheirRegisters`); what is left to show is that its
checks, its data and the registers it leaves depend on its own unit's registers only. -/

namespace Sys2Proof.Machine

/-- Two runs of one command in which the same check fails, or none does, leave registers related as an error
and an answer relate them. -/
theorem regs_related {R : Regs → Regs → Prop} {i : Instr} {s t s' t' : State}
    (hs : exec i s = .next s') (ht : exec i t = .next t')
    (hc : checkError i s.regs = checkError i t.regs)
    (herr : ∀ e, R { s.regs with lerr := errorCode e } { t.regs with lerr := errorCode e })
    (hok : R (regsAfter i s.regs) (regsAfter i t.regs)) : R s'.regs t'.regs := by
  rcases exec_next_cases ht with ⟨e, he, rfl⟩ | ⟨hn, rfl⟩
  · rw [exec_of_error (hc.trans he)] at hs
    cases hs
    exact herr e
  · rw [exec_of_ok (hc.trans hn)] at hs
    cases hs
    exact hok

/-- From the same responses, two runs that add the same response reach the same responses. -/
theorem responses_eq {i : Instr} {s t s' t' : State} (hs : exec i s = .next s')
    (ht : exec i t = .next t') (hr : s.responses = t.responses)
    (hc : checkError i s.regs = checkError i t.regs)
    (hd : answerData i s.regs = answerData i t.regs) : s'.responses = t'.responses := by
  obtain ⟨f, hs', ht'⟩ := same_response hs ht hc fun _ => hd
  rw [hs', ht', hr]

/-! ## The adapter and CBC units -/

section
variable {r t : Regs} (h : SameAdapter r t)
include h

/-- Registers that agree on the adapter and CBC units differ in the CMAC unit's and in `LERR` only. -/
theorem SameAdapter.eq_withCmac :
    r = { t with
      cinit := r.cinit, ck := r.ck, k1 := r.k1, k2 := r.k2, x := r.x, buf := r.buf, blen := r.blen
      lerr := r.lerr } := by
  obtain ⟨hk, hf, hkey, hiv⟩ := h
  rw [← hk, ← hf, ← hkey, ← hiv]

variable {i : Instr} (hi : isAdapterCommand i = true)
include hi

theorem SameAdapter.checkError_eq : checkError i r = checkError i t := by
  have hb : r.blockSize = t.blockSize := congrArg Config.bs h.fam
  cases i with
  | zeroize _ | stat _ | cmacInit _ _ | cmacUpdate _ | cmacFinal _ _ | skdDerive _ _ | rotl1 _
  | keyPrep _ _ => simp [isAdapterCommand, opcode] at hi
  | _ => simp only [checkError, h.keyv, hb]

theorem SameAdapter.answerData_eq : answerData i r = answerData i t := by
  rw [h.eq_withCmac]
  cases i with
  | stat _ | cmacFinal _ _ => simp [isAdapterCommand, opcode] at hi
  | _ => rfl

theorem SameAdapter.regsAfter : SameAdapter (regsAfter i r) (regsAfter i t) := by
  rw [h.eq_withCmac]
  cases i with
  | cmacUpdate _ => simp [isAdapterCommand, opcode] at hi
  | _ => exact ⟨rfl, rfl, rfl, rfl⟩

end

/-! ## The CMAC unit -/

section
variable {r t : Regs} (h : SameCmac r t)
include h

/-- Registers that agree on the CMAC unit differ in the adapter and CBC units' and in `LERR` only. -/
theorem SameCmac.eq_withAdapter :
    r = { t with keyv := r.keyv, fam := r.fam, key := r.key, iv := r.iv, lerr := r.lerr } := by
  obtain ⟨hi, hck, hk1, hk2, hx, hbuf, hblen⟩ := h
  rw [← hi, ← hck, ← hk1, ← hk2, ← hx, ← hbuf, ← hblen]

/-- A byte fed to the message reads no register of another unit (42_cmac_engine.md R174). -/
theorem SameCmac.absorbByte (c : Config.Params) (b : Byte) :
    SameCmac ((absorbByte r b).run c) ((absorbByte t b).run c) := by
  by_cases hfull : r.blen = 16
  · rw [absorbByte_of_full c b hfull, absorbByte_of_full c b (h.blen.symm.trans hfull), h.ck, h.x,
      h.buf]
    exact ⟨h.cinit, rfl, h.k1, h.k2, rfl, rfl, rfl⟩
  · have hroom : t.blen ≠ 16 := fun e => hfull (h.blen.trans e)
    rw [absorbByte_of_room b hfull, absorbByte_of_room b hroom, h.buf, h.blen]
    exact ⟨h.cinit, h.ck, h.k1, h.k2, h.x, rfl, rfl⟩

variable {i : Instr} (hi : isCmacCommand i = true)
include hi

theorem SameCmac.checkError_eq : checkError i r = checkError i t := by
  cases i with
  | cmacInit _ _ | cmacUpdate _ | cmacFinal _ _ => simp only [checkError, h.cinit]
  | _ => simp [isCmacCommand, opcode] at hi

theorem SameCmac.answerData_eq : answerData i r = answerData i t := by
  rw [h.eq_withAdapter]
  cases i with
  | cmacInit _ _ | cmacUpdate _ | cmacFinal _ _ => rfl
  | _ => simp [isCmacCommand, opcode] at hi

end

theorem SameCmac.absorb (c : Config.Params) (p : ByteString) {r t : Regs} (h : SameCmac r t) :
    SameCmac ((absorb r p).run c) ((absorb t p).run c) := by
  induction p generalizing r t with
  | nil => exact h
  | cons b p ih =>
    rw [absorb_cons_run, absorb_cons_run]
    exact ih (h.absorbByte c b)

theorem SameCmac.regsAfter {i : Instr} (hi : isCmacCommand i = true) {r t : Regs}
    (h : SameCmac r t) : SameCmac (regsAfter i r) (regsAfter i t) := by
  cases i with
  | cmacInit t p => exact ⟨rfl, rfl, rfl, rfl, rfl, rfl, rfl⟩
  | cmacUpdate p => exact h.absorb _ p
  | cmacFinal n p => exact ⟨h.cinit, h.ck, h.k1, h.k2, rfl, rfl, rfl⟩
  | _ => simp [isCmacCommand, opcode] at hi

/-! ## Neither unit writes the other's registers -/

theorem writes_of_isAdapterCommand {i : Instr} (hi : isAdapterCommand i = true) :
    writesCmacKey i = false ∧ writesMessage i = false := by
  cases i with
  | zeroize _ | cmacInit _ _ | cmacUpdate _ | cmacFinal _ _ =>
    simp [isAdapterCommand, opcode] at hi
  | _ => exact ⟨rfl, rfl⟩

theorem writes_of_isCmacCommand {i : Instr} (hi : isCmacCommand i = true) :
    writesKey i = false ∧ writesIv i = false := by
  cases i with
  | cmacInit _ _ | cmacUpdate _ | cmacFinal _ _ => exact ⟨rfl, rfl⟩
  | _ => simp [isCmacCommand, opcode] at hi

/-- Settles O17: a unit's command fails the same check, answers the same data and leaves the unit's registers
alike in both states, and by O16 it writes none of the other unit's. -/
theorem cipherUnitsAreIndependent : Obligations.CipherUnitsAreIndependent := by
  intro i s t s' t' hs ht hr
  obtain ⟨hkey, hiv, hcmac, hmsg, -⟩ := commandsWriteOnlyTheirRegisters i s s' hs
  refine ⟨fun hi h => ?_, fun hi h => ?_⟩
  · have hc := h.checkError_eq hi
    obtain ⟨hwc, hwm⟩ := writes_of_isAdapterCommand hi
    obtain ⟨hinit, hck, hk1, hk2⟩ := hcmac hwc
    obtain ⟨hx, hbuf, hblen⟩ := hmsg hwm
    exact ⟨regs_related hs ht hc (fun _ => ⟨h.keyv, h.fam, h.key, h.iv⟩) (h.regsAfter hi),
      ⟨hinit, hck, hk1, hk2, hx, hbuf, hblen⟩, responses_eq hs ht hr hc (h.answerData_eq hi)⟩
  · have hc := h.checkError_eq hi
    obtain ⟨hwk, hwi⟩ := writes_of_isCmacCommand hi
    obtain ⟨hkeyv, hfam, hkey⟩ := hkey hwk
    exact ⟨regs_related hs ht hc
        (fun _ => ⟨h.cinit, h.ck, h.k1, h.k2, h.x, h.buf, h.blen⟩) (h.regsAfter hi),
      ⟨hkeyv, hfam, hkey, hiv hwi⟩, responses_eq hs ht hr hc (h.answerData_eq hi)⟩

end Sys2Proof.Machine
end

