-- ==== Sys2Proof/Proofs/SessionKeyCommands.lean ====
section
/-! PROOF. What the session-key and byte commands do (43_session_key_and_bytes.md R211 to R214), and that they
depend on the command alone (R215): each part of a command's effect is read off its checks, its registers and
its data (Proofs/CommandParts.lean). -/

namespace Sys2Proof.Machine

/-! ## The three commands and the registers -/

/-- The checks and the data of the three commands read no register, and the commands write none
(43_session_key_and_bytes.md R215). -/
theorem pureCommand_parts {i : Instr} (hi : isPureCommand i = true) (r t : Regs) :
    checkError i r = checkError i t ∧ regsAfter i r = r ∧ answerData i r = answerData i t := by
  cases i with
  | skdDerive _ _ | rotl1 _ | keyPrep _ _ => exact ⟨rfl, rfl, rfl⟩
  | _ => simp [isPureCommand, opcode] at hi

/-- Settles O18: both runs fail the same check or answer the same data; an error writes `LERR` only, and an
answer nothing. -/
theorem pureCommandsIgnoreState : Obligations.PureCommandsIgnoreState := by
  intro i s t s' t' hi hs ht
  obtain ⟨hc, hr, hd⟩ := pureCommand_parts hi s.regs t.regs
  refine ⟨?_, same_response hs ht hc fun _ => hd⟩
  rcases exec_next_cases hs with ⟨e, -, rfl⟩ | ⟨-, rfl⟩
  · rfl
  · rw [State.reply_regs, hr]

/-! ## ROTL1 -/

/-- ROTL1's rotation is the library's, by one place (43_session_key_and_bytes.md R213). -/
theorem rotateLeftOne_eq_rotate (p : ByteString) : rotateLeftOne p = p.rotate 1 := by
  cases p with
  | nil => rfl
  | cons b p => simp [rotateLeftOne, slice]

theorem iterate_rotateLeftOne (n : Nat) (p : ByteString) : rotateLeftOne^[n] p = p.rotate n := by
  induction n with
  | zero => exact p.rotate_zero.symm
  | succ n ih =>
    rw [Function.iterate_succ_apply', ih, rotateLeftOne_eq_rotate, List.rotate_rotate]

/-- Settles O52: the rotation by one place, and `n` of them are the rotation by `n` places. -/
theorem rotateLeftEffect : Obligations.RotateLeftEffect := by
  refine fun s p arg => ⟨fun hp => ⟨?_, ?_, fun i hi => ?_, ?_⟩, fun hp => ?_,
    errs_of_nonzeroArg s (by decide)⟩
  · exact answers_of_checkError_none (i := .rotl1 p) (if_neg (mt List.length_eq_zero_iff.1 hp))
  · rw [rotateLeftOne_eq_rotate, List.length_rotate]
  · rw [rotateLeftOne_eq_rotate, List.getElem?_rotate hi]
  · rw [iterate_rotateLeftOne, List.rotate_length]
  · exact errs_of_checkError (i := .rotl1 p) (if_pos (List.length_eq_zero_iff.2 hp))

/-! ## SKD.DERIVE -/

/-- Where the four bytes of each nonce start that a family's session key takes
(43_session_key_and_bytes.md R212). -/
def nonceOffsets : Family → List Nat
  | .des => [0]
  | .tdes2 => [0, 4]
  | .tdes3 => [0, 6, 12]
  | .aes => [0, 12]

/-- One group of the session key: four bytes of RndA, then the same four of RndB. -/
def sessionGroup (a b : ByteString) (o : Nat) : ByteString := slice o (o + 4) a ++ slice o (o + 4) b

/-- The session key is its groups in a row (43_session_key_and_bytes.md R211). -/
theorem sessionKey_eq_flatten (f : Family) (a b : ByteString) :
    sessionKey f a b = ((nonceOffsets f).map (sessionGroup a b)).flatten := by
  cases f <;> simp [sessionKey, nonceOffsets, sessionGroup]

theorem nonceOffsets_le {f : Family} {o : Nat} (h : o ∈ nonceOffsets f) : o + 4 ≤ Config.nl f := by
  revert o
  cases f <;> decide

theorem skl_eq (f : Family) : Config.skl f = 8 * (nonceOffsets f).length := by cases f <;> rfl

theorem slice_getElem? {lo hi j : Nat} (h : lo + j < hi) (b : ByteString) :
    (slice lo hi b)[j]? = b[lo + j]? := by
  rw [slice, List.getElem?_take_of_lt (by omega), List.getElem?_drop]

/-- The first four bytes of a group are RndA's, the other four RndB's. -/
theorem sessionGroup_getElem? {a : ByteString} {o j : Nat} (ha : o + 4 ≤ a.length) (hj : j < 4)
    (b : ByteString) :
    (sessionGroup a b o)[j]? = a[o + j]? ∧ (sessionGroup a b o)[4 + j]? = b[o + j]? := by
  have hlen : (slice o (o + 4) a).length = 4 := by rw [slice_length]; omega
  constructor
  · rw [sessionGroup, List.getElem?_append_left (by omega), slice_getElem? (by omega)]
  · rw [sessionGroup, List.getElem?_append_right (by omega), hlen, Nat.add_sub_cancel_left,
      slice_getElem? (by omega)]

/-- A payload cut in two. -/
theorem slice_append_slice {lo hi : Nat} {p : ByteString} (hp : p.length = hi) :
    slice 0 lo p ++ slice lo hi p = p := by
  rw [slice_zero, slice, ← hp, ← List.length_drop, List.take_length, List.take_append_drop]

/-- A byte of groups of equal length in a row is a byte of one group. -/
theorem flatten_getElem? {n i j : Nat} {l : List ByteString} (h : ∀ b ∈ l, b.length = n)
    (hi : i < l.length) (hj : j < n) : l.flatten[i * n + j]? = l[i][j]? := by
  have hb := blocks_getElem? (bs := n) l.flatten hi
  rw [blocks_of_flatten h, List.getElem?_eq_getElem hi, Option.some.injEq] at hb
  rw [hb, List.getElem?_take_of_lt hj, List.getElem?_drop]

section
variable {f : Family} {a b : ByteString} (ha : a.length = Config.nl f) (hb : b.length = Config.nl f)
include ha hb

theorem length_of_mem_sessionGroups :
    ∀ g ∈ (nonceOffsets f).map (sessionGroup a b), g.length = 8 := by
  intro g hg
  obtain ⟨o, ho, rfl⟩ := List.mem_map.1 hg
  have hle := nonceOffsets_le ho
  simp only [sessionGroup, List.length_append, slice_length]
  omega

theorem sessionKey_length : (sessionKey f a b).length = 8 * (nonceOffsets f).length := by
  rw [sessionKey_eq_flatten, flatten_length (length_of_mem_sessionGroups ha hb), List.length_map,
    Nat.mul_comm]

/-- Bytes `8g` to `8g + 3` of the session key are RndA's, the next four RndB's
(43_session_key_and_bytes.md R212). -/
theorem sessionKey_getElem? {g j : Nat} (hg : g < (nonceOffsets f).length) (hj : j < 4) :
    (sessionKey f a b)[8 * g + j]? = a[(nonceOffsets f).getD g 0 + j]? ∧
      (sessionKey f a b)[8 * g + 4 + j]? = b[(nonceOffsets f).getD g 0 + j]? := by
  have hgroup (k : Nat) (hk : k < 8) :
      (sessionKey f a b)[8 * g + k]? = (sessionGroup a b (nonceOffsets f)[g])[k]? := by
    rw [sessionKey_eq_flatten, Nat.mul_comm,
      flatten_getElem? (length_of_mem_sessionGroups ha hb) (by simpa using hg) hk, List.getElem_map]
  have hfits : (nonceOffsets f)[g] + 4 ≤ a.length :=
    ha ▸ nonceOffsets_le (List.getElem_mem hg)
  rw [List.getD_eq_getElem _ _ hg, Nat.add_assoc, hgroup j (by omega), hgroup (4 + j) (by omega)]
  exact sessionGroup_getElem? hfits hj b

end

/-- Settles O51: the nonces are the two halves of the payload, and the session key is its groups in a row. -/
theorem skdDeriveEffect : Obligations.SkdDeriveEffect := by
  refine fun s f p arg => ⟨fun hp => ?_, fun hp => ?_, errs_of_noFamilyArg s (by decide)⟩
  · have ha : (slice 0 (Config.nl f) p).length = Config.nl f := by rw [slice_length]; omega
    have hb : (slice (Config.nl f) (2 * Config.nl f) p).length = Config.nl f := by
      rw [slice_length]; omega
    have hk := sessionKey_length ha hb
    exact ⟨_, _, _, nonceOffsets f, (slice_append_slice hp).symm, ha, hb,
      answers_of_checkError_none (i := .skdDerive f p) (if_neg (not_not.2 hp)),
      hk.trans (skl_eq f).symm, by cases f <;> rfl, hk,
      fun g hg j hj => sessionKey_getElem? ha hb hg hj⟩
  · exact errs_of_checkError (i := .skdDerive f p) (if_pos hp)

/-! ## KEY.PREP -/

theorem preparedKey_of_ne_aes {f : Family} (hf : f ≠ .aes) (p : ByteString) :
    preparedKey f p = p.map (· &&& 0xFE) := by
  cases f with
  | aes => exact absurd rfl hf
  | _ => rfl

@[simp] theorem preparedKey_length (f : Family) (p : ByteString) :
    (preparedKey f p).length = p.length := by
  by_cases hf : f = .aes
  · rw [hf]; rfl
  · rw [preparedKey_of_ne_aes hf, List.length_map]

/-- The cleared bits stay cleared (43_session_key_and_bytes.md R214). -/
theorem preparedKey_idempotent (f : Family) (p : ByteString) :
    preparedKey f (preparedKey f p) = preparedKey f p := by
  by_cases hf : f = .aes
  · rw [hf]; rfl
  · rw [preparedKey_of_ne_aes hf, preparedKey_of_ne_aes hf, List.map_map]
    refine List.map_congr_left fun b _ => ?_
    rw [Function.comp_apply, BitVec.and_assoc, BitVec.and_self]

/-- KEY.PREP with a key of its family's length answers the prepared key. -/
theorem keyPrep_answers (s : State) {f : Family} {p : ByteString} (hp : p.length = Config.kl f) :
    Answers (exec (.keyPrep f p) s) s s.regs (preparedKey f p) :=
  answers_of_checkError_none (i := .keyPrep f p) (if_neg (not_not.2 hp))

/-- Settles O53: the answer has the key's length, so that KEY.PREP accepts it, and prepares to itself. -/
theorem keyPrepEffect : Obligations.KeyPrepEffect := by
  refine fun s f p arg => ⟨fun hp => ?_, fun hp => ?_, errs_of_noFamilyArg s (by decide)⟩
  · have hagain := keyPrep_answers s ((preparedKey_length f p).trans hp)
    rw [preparedKey_idempotent] at hagain
    refine ⟨_, keyPrep_answers s hp, hagain, preparedKey_length f p, ?_, fun hf i hi => ?_⟩
    · rintro rfl
      rfl
    · rw [preparedKey_of_ne_aes hf]
      exact List.getD_map p 0 fun b : Byte => b &&& 0xFE
  · exact errs_of_checkError (i := .keyPrep f p) (if_pos hp)

end Sys2Proof.Machine
end

