-- ==== Sys2Proof/Proofs/SystemCommands.lean ====
section
/-! PROOF. What ZEROIZE and STAT do (44_system_commands.md R230, R231), and that after ZEROIZE the block answers
as after reset but for `LERR` (70_reset_and_hazards.md R303): no check reads `LERR`, no data but STAT's show it,
and every command that ends with OK keeps it. -/

namespace Sys2Proof.Machine

/-! ## ZEROIZE and STAT -/

/-- ZEROIZE without payload leaves the reset values in every register but `LERR`
(44_system_commands.md R230). -/
theorem zeroize_answers (s : State) :
    Answers (exec (.zeroize []) s) s { Regs.reset with lerr := s.regs.lerr } [] :=
  answers_of_checkError_none (i := .zeroize []) rfl

/-- Settles O25: the registers of `zeroize_answers`, read one by one. -/
theorem zeroizeEffect : Obligations.ZeroizeEffect := by
  refine fun s p arg => ⟨?_, fun hp => ?_, errs_of_nonzeroArg s (by decide)⟩
  · rintro rfl
    exact ⟨_, zeroize_answers s, rfl, rfl, rfl, rfl, rfl, rfl, rfl, rfl, rfl, rfl, rfl, rfl⟩
  · exact errs_of_checkError (i := .zeroize p) (if_pos (mt List.length_eq_zero_iff.1 hp))

/-- The two flags are bits of weight 1 and 2 (44_system_commands.md R231). -/
theorem flagsByte_eq (r : Regs) :
    flagsByte r = BitVec.ofNat 8 ((if r.keyv then 1 else 0) + (if r.cinit then 2 else 0)) := by
  unfold flagsByte flagBit
  cases r.keyv <;> cases r.cinit <;> rfl

/-- Settles O26: STAT answers its report, whose first byte is the sum of the flags' weights. -/
theorem statReport : Obligations.StatReport := by
  refine fun s p arg => ⟨?_, fun hp => ?_, errs_of_nonzeroArg s (by decide)⟩
  · rintro rfl
    rw [← flagsByte_eq]
    exact answers_of_checkError_none (i := .stat []) rfl
  · exact errs_of_checkError (i := .stat p) (if_pos (mt List.length_eq_zero_iff.1 hp))

/-- A STAT that ends with OK adds its four bytes under the status 0x00 (44_system_commands.md R231). -/
theorem stat_responses {s s' : State} {p : ByteString} {a b c e : Byte}
    (hs : exec (.stat p) s = .next s') (hok : checkError (.stat p) s.regs = none)
    (hd : statusReport s.regs = [a, b, c, e]) :
    s'.responses = s.responses ++ [[0, 0, 4, a, b, c, e]] := by
  rw [exec_of_ok hok, answerData, hd] at hs
  cases hs
  simp [responseFrame_eq]

/-! ## `LERR` in the three parts of a command -/

section
variable (r : Regs) (e : Byte)

theorem absorbByte_withLerr (c : Config.Params) (b : Byte) :
    (absorbByte { r with lerr := e } b).run c = { (absorbByte r b).run c with lerr := e } := by
  by_cases hfull : r.blen = 16
  · rw [absorbByte_of_full c b hfull, absorbByte_of_full (r := { r with lerr := e }) c b hfull]
  · rw [absorbByte_of_room b hfull, absorbByte_of_room (r := { r with lerr := e }) b hfull]
    rfl

theorem absorb_withLerr (c : Config.Params) (p : ByteString) :
    (absorb { r with lerr := e } p).run c = { (absorb r p).run c with lerr := e } := by
  induction p generalizing r with
  | nil => rfl
  | cons b p ih => rw [absorb_cons_run, absorbByte_withLerr, ih, absorb_cons_run]

/-- A command that ends with OK neither reads nor writes `LERR` (10_state.md R36). -/
theorem regsAfter_withLerr (i : Instr) :
    regsAfter i { r with lerr := e } = { regsAfter i r with lerr := e } := by
  cases i with
  | cmacUpdate p => exact absorb_withLerr r e Config.params p
  | _ => rfl

/-- STAT is the one command whose data show `LERR`. -/
theorem answerData_withLerr {i : Instr} (hi : ∀ p, i ≠ .stat p) :
    answerData i { r with lerr := e } = answerData i r := by
  cases i with
  | stat p => exact absurd rfl (hi p)
  | _ => rfl

end

/-! ## Registers that differ in `LERR` only -/

/-- The registers are equal but for `LERR` (70_reset_and_hazards.md R303). -/
def SameButLerr (r t : Regs) : Prop := r = { t with lerr := r.lerr }

theorem SameButLerr.refl (r : Regs) : SameButLerr r r := rfl

section
variable {r t : Regs} (h : SameButLerr r t)
include h

theorem SameButLerr.withLerr (a b : Byte) : SameButLerr { r with lerr := a } { t with lerr := b } := by
  rw [h]
  rfl

theorem SameButLerr.checkError_eq (i : Instr) : checkError i r = checkError i t := by
  rw [h]
  exact checkError_congr rfl rfl rfl

theorem SameButLerr.regsAfter (i : Instr) : SameButLerr (regsAfter i r) (regsAfter i t) := by
  rw [h, regsAfter_withLerr]
  rfl

theorem SameButLerr.answerData_eq {i : Instr} (hi : ∀ p, i ≠ .stat p) :
    answerData i r = answerData i t := by
  rw [h, answerData_withLerr t _ hi]

/-- The first three bytes of the report are the same (44_system_commands.md R231). -/
theorem SameButLerr.statusReport_eq :
    statusReport r = [flagsByte t, familyCode t.fam, BitVec.ofNat 8 t.blen.val, r.lerr] := by
  rw [h]
  rfl

end

section
variable {i : Instr} {s t s' t' : State} (hs : exec i s = .next s') (ht : exec i t = .next t')
  (h : SameButLerr s.regs t.regs)
include hs ht h

/-- A command leaves registers that again differ in `LERR` only. -/
theorem exec_sameButLerr : SameButLerr s'.regs t'.regs :=
  regs_related hs ht (h.checkError_eq i) (fun _ => h.withLerr _ _) (h.regsAfter i)

/-- The responses are the same, or they are two reports of STAT that differ in `LERR`. -/
theorem exec_responses_of_sameButLerr :
    (∃ f, s'.responses = s.responses ++ [f] ∧ t'.responses = t.responses ++ [f]) ∨
      ∃ p a b c, i = .stat p ∧
        s'.responses = s.responses ++ [[0, 0, 4, a, b, c, s.regs.lerr]] ∧
        t'.responses = t.responses ++ [[0, 0, 4, a, b, c, t.regs.lerr]] := by
  have hc := h.checkError_eq i
  by_cases hi : ∃ p, i = .stat p
  · obtain ⟨p, rfl⟩ := hi
    by_cases hok : checkError (.stat p) t.regs = none
    · exact .inr ⟨p, _, _, _, rfl, stat_responses hs (hc.trans hok) h.statusReport_eq,
        stat_responses ht hok rfl⟩
    · exact .inl (same_response hs ht hc fun hn => absurd hn hok)
  · exact .inl (same_response hs ht hc fun _ => h.answerData_eq fun p hp => hi ⟨p, hp⟩)

end

/-- Settles O21: a step is idle, a reset, a decode error or a command, and each keeps the registers the same but
for `LERR`; only a STAT that ends with OK shows the difference. -/
theorem zeroizeEqualsResetButLerr : Obligations.ZeroizeEqualsResetButLerr := by
  refine ⟨zeroize_answers, fun s t s' t' (h : SameButLerr s.regs t.regs) hpend hs ht => ?_⟩
  match hp : s.pending with
  | [] =>
    rw [step_idle hp] at hs
    rw [step_idle (hpend.symm.trans hp)] at ht
    cases hs
    cases ht
    exact ⟨h, hpend, .inl ⟨rfl, rfl⟩⟩
  | .reset :: ms =>
    rw [step_reset hp] at hs
    rw [step_reset (hpend.symm.trans hp)] at ht
    cases hs
    cases ht
    exact ⟨.refl _, rfl, .inl ⟨rfl, rfl⟩⟩
  | .frame g :: ms =>
    match hd : decode g with
    | .error e =>
      rw [step_frame_error hp hd] at hs
      rw [step_frame_error (hpend.symm.trans hp) hd] at ht
      cases hs
      cases ht
      exact ⟨h.withLerr _ _, rfl, .inr (.inl ⟨_, rfl, rfl⟩)⟩
    | .ok i =>
      rw [step_frame_ok hp hd] at hs
      rw [step_frame_ok (hpend.symm.trans hp) hd] at ht
      obtain ⟨-, -, -, -, hps, -⟩ := commandsWriteOnlyTheirRegisters i _ s' hs
      obtain ⟨-, -, -, -, hpt, -⟩ := commandsWriteOnlyTheirRegisters i _ t' ht
      refine ⟨exec_sameButLerr hs ht h, hps.trans hpt.symm, .inr ?_⟩
      rcases exec_responses_of_sameButLerr hs ht h with hsame | ⟨p, a, b, c, rfl, hrs, hrt⟩
      · exact .inl hsame
      · exact .inr ⟨g, p, ms, a, b, c, rfl, hd, hrs, hrt⟩

end Sys2Proof.Machine
end

