-- ==== Sys2Proof/Proofs/FrameErrors.lean ====
section
/-! PROOF. The error a frame ends in, if it does, and what a step over the frame then does
(60_exceptions.md R262, R263): `frameError` reads it off the decoder and the checks of the command. -/

namespace Sys2Proof.Machine

/-- The error a frame ends in, if it does: its decode error, or the first check of its command that fails
(60_exceptions.md R262). -/
def frameError (r : Regs) (f : ByteString) : Option CmdError :=
  match decode f with
  | .error e => some e
  | .ok i => checkError i r

theorem frameError_of_decode_error {f : ByteString} {e : CmdError} (h : decode f = .error e)
    (r : Regs) : frameError r f = some e := by rw [frameError, h]

theorem frameError_of_decode_ok {f : ByteString} {i : Instr} (h : decode f = .ok i) (r : Regs) :
    frameError r f = checkError i r := by rw [frameError, h]

theorem errorCode_ne_zero (e : CmdError) : errorCode e ≠ 0 := by cases e <;> decide

/-- A command that ends with OK leaves `LERR` (10_state.md R36). -/
theorem regsAfter_lerr (i : Instr) (r : Regs) : (regsAfter i r).lerr = r.lerr :=
  (congrArg Regs.lerr (regsAfter_withLerr r r.lerr i) :)

section
variable {s : State} {f : ByteString} {ms : List HostMove} (h : s.pending = .frame f :: ms)
include h

/-- A step over a frame with an error takes that error (60_exceptions.md R263). -/
theorem step_of_frameError {e : CmdError} (he : frameError s.regs f = some e) :
    step s = .next ({ s with pending := ms }.raise e) := by
  match hd : decode f with
  | .error e' =>
    rw [frameError_of_decode_error hd] at he
    cases he
    exact step_frame_error h hd
  | .ok i =>
    rw [step_frame_ok h hd]
    rw [frameError_of_decode_ok hd] at he
    exact exec_of_error he

/-- A step over a frame without an error answers and leaves `LERR` (10_state.md R36). -/
theorem step_of_frameError_none (he : frameError s.regs f = none) :
    ∃ r d, r.lerr = s.regs.lerr ∧ step s = .next ({ s with pending := ms }.reply r d) := by
  match hd : decode f with
  | .error e => rw [frameError_of_decode_error hd] at he; cases he
  | .ok i =>
    rw [frameError_of_decode_ok hd] at he
    exact ⟨_, _, regsAfter_lerr i s.regs, (step_frame_ok h hd).trans (exec_of_ok he)⟩

end

/-- Settles O11: the frame has an error, which is taken, or it has none. -/
theorem errorWritesOnlyLerr : Obligations.ErrorWritesOnlyLerr := by
  intro s s' f ms hp hs
  match he : frameError s.regs f with
  | some e =>
    rw [step_of_frameError hp he] at hs
    cases hs
    exact ⟨errorCode e, _, rfl, fun _ => ⟨rfl, rfl⟩, fun h0 => absurd h0 (errorCode_ne_zero e)⟩
  | none =>
    obtain ⟨r, d, hr, hstep⟩ := step_of_frameError_none hp he
    rw [hstep] at hs
    cases hs
    exact ⟨0, _, rfl, fun h0 => absurd rfl h0, fun _ => hr⟩

end Sys2Proof.Machine
end

