-- ==== Sys2Proof/Proofs/StatusTables.lean ====
section
/-! PROOF. The spec's tables of checks and statuses (20_memory.md R52, 30_encoding.md R72, R74, R76,
60_exceptions.md R261, R262) against the decoder and the commands: `frameStatus_eq` says that the tables
over the raw bytes give the status of the error `frameError` finds, and every status of a command's row
occurs in the frame `witnessFrame`. -/

namespace Sys2Proof.Machine

/-! ## Decode errors in the tables -/

theorem opcode_legal (i : Instr) : opcode i ∈ legalOpcodes := by
  cases i <;> simp [opcode, legalOpcodes]

/-- The argument of a well-formed command is one the tables accept (30_encoding.md R74). -/
theorem argAccepted_of_argOk {i : Instr} (h : i.argOk = true) :
    argAccepted (opcode i) (argByte i) = true := by
  cases i with
  | keyLoad f _ | skdDerive f _ | keyPrep f _ => cases f <;> rfl
  | cmacFinal n _ => exact h
  | _ => rfl

/-- The four kinds of argument (30_encoding.md R74). -/
theorem legalOpcode_cases {op : Byte} (h : op ∈ legalOpcodes) :
    op ∈ zeroArgOpcodes ∨ op ∈ familyArgOpcodes ∨ op = 0x32 ∨ op = 0x30 := by
  revert op
  rw [← List.forall_iff_forall_mem]
  decide

theorem zeroArg_error {arg : Byte} {i : Instr} {e : CmdError} (h : zeroArg arg i = .error e) :
    arg ≠ 0 ∧ e = .badArg := by
  unfold zeroArg at h
  split at h
  · cases h
  · next harg => cases h; exact ⟨harg, rfl⟩

theorem familyArg_error {arg : Byte} {mk : Family → Instr} {e : CmdError}
    (h : familyArg arg mk = .error e) : 3 < arg.toNat ∧ e = .badArg := by
  unfold familyArg at h
  split at h
  · cases h
  · next harg => cases h; exact ⟨(familyOfCode_eq_none_iff arg).1 harg, rfl⟩

theorem macLenArg_error {arg : Byte} {i : Instr} {e : CmdError} (h : macLenArg arg i = .error e) :
    Config.cmacMaxN < arg.toNat ∧ e = .badArg := by
  unfold macLenArg at h
  split at h
  · cases h
  · next harg => cases h; exact ⟨Nat.not_le.1 harg, rfl⟩

theorem argAccepted_of_zeroArg {op : Byte} (h : op ∈ zeroArgOpcodes) (arg : Byte) :
    argAccepted op arg = decide (arg = 0) := if_pos h

theorem argAccepted_of_familyArg {op : Byte} (h : op ∈ familyArgOpcodes) (arg : Byte) :
    argAccepted op arg = decide (arg.toNat ≤ 3) := by
  have hz : op ∉ zeroArgOpcodes := by
    revert op
    rw [← List.forall_iff_forall_mem]
    decide
  exact (if_neg hz).trans (if_pos h)

/-- The opcode map refuses an opcode that is none of the seventeen, and an argument its opcode does not
accept (30_encoding.md R74, R76). -/
theorem decodeCommand_error {op arg : Byte} {p : ByteString} {e : CmdError}
    (h : decodeCommand op arg p = .error e) :
    (op ∉ legalOpcodes ∧ e = .badOpcode) ∨
      (op ∈ legalOpcodes ∧ argAccepted op arg = false ∧ e = .badArg) := by
  by_cases hop : op ∈ legalOpcodes
  · suffices argAccepted op arg = false ∧ e = .badArg from .inr ⟨hop, this⟩
    rcases legalOpcode_cases hop with hz | hf | rfl | rfl
    · obtain ⟨i, hi⟩ := decodeCommand_of_zeroArg arg p hz
      obtain ⟨harg, he⟩ := zeroArg_error (hi.symm.trans h)
      exact ⟨(argAccepted_of_zeroArg hz arg).trans (decide_eq_false harg), he⟩
    · obtain ⟨mk, hmk⟩ := decodeCommand_of_familyArg arg p hf
      obtain ⟨harg, he⟩ := familyArg_error (hmk.symm.trans h)
      exact ⟨(argAccepted_of_familyArg hf arg).trans (decide_eq_false (Nat.not_le.2 harg)), he⟩
    · obtain ⟨harg, he⟩ := macLenArg_error (i := .cmacFinal arg p) h
      exact ⟨decide_eq_false (Nat.not_le.2 harg), he⟩
    · cases h
  · exact .inl ⟨hop, Except.error.inj (h.symm.trans (decodeCommand_of_illegal arg p hop))⟩

/-! ## Operand checks in the tables -/

/-- The status of how a frame ends (60_exceptions.md R260), OK included. -/
def endStatus (o : Option CmdError) : Byte := o.elim 0 errorCode

@[simp] theorem endStatus_none : endStatus none = 0 := rfl
@[simp] theorem endStatus_some (e : CmdError) : endStatus (some e) = errorCode e := rfl
@[simp] theorem endStatus_ite (p : Prop) [Decidable p] (a b : Option CmdError) :
    endStatus (if p then a else b) = if p then endStatus a else endStatus b := apply_ite _ _ _ _

/-- The status the tables give to the checks after decoding, for an opcode, its argument and the length of
the payload (60_exceptions.md R262, checks 4 and 5). -/
def operandStatus (r : Regs) (op arg : Byte) (n : Nat) : Byte :=
  if op ∈ keyOpcodes ∧ r.keyv = false then 0x03
  else if op ∈ cmacKeyOpcodes ∧ r.cinit = false then 0x04
  else if op = 0x30 ∧ arg ≠ 0x03 then 0x01
  else if lengthAccepted r op arg n = false then
    if op ∈ keyPayloadOpcodes then 0x01 else 0x02
  else 0x00

theorem frameStatus_framed {hi lo : Byte} {p : ByteString} (h : p.length = lenField hi lo)
    (r : Regs) (op arg : Byte) :
    frameStatus r (op :: arg :: hi :: lo :: p) =
      if op ∉ legalOpcodes then 0x06
      else if argAccepted op arg = false then 0x05
      else operandStatus r op arg p.length := by
  refine if_neg ?_
  change ¬(p.length + 4 < 4 ∨ p.length + 4 ≠ 4 + lenField hi lo)
  omega

/-! The columns of the family table, as 20_memory.md R52 indexes them by the family code (00_scope.md R6). -/

theorem keyLength_of_familyCode (f : Family) :
    [8, 16, 24, 16][(familyCode f).toNat]?.getD 0 = Config.kl f := by cases f <;> rfl

theorem nonceLength_of_familyCode (f : Family) :
    [8, 8, 16, 16][(familyCode f).toNat]?.getD 0 = Config.nl f := by cases f <;> rfl

theorem blockSize_of_familyCode (r : Regs) :
    [8, 8, 8, 16][(familyCode r.fam).toNat]?.getD 0 = r.blockSize := by
  rw [Regs.blockSize]; cases r.fam <;> rfl

theorem isWholeBlocks_eq (bs : Nat) (p : ByteString) :
    isWholeBlocks bs p = decide (0 < p.length ∧ p.length % bs = 0) := by
  simp [isWholeBlocks, Nat.pos_iff_ne_zero]

/-- The tag and the length of CMAC.INIT are one check of the command (42_cmac_engine.md R172). -/
theorem operandStatus_cmacInit (r : Regs) (t : Byte) (n : Nat) :
    operandStatus r 0x30 t n = if t ≠ 3 ∨ n ≠ 16 then 0x01 else 0x00 := by
  have hlen : lengthAccepted r 0x30 t n = decide (n = 16) := rfl
  rw [operandStatus, hlen]
  by_cases ht : t = 3#8 <;> simp [keyOpcodes, cmacKeyOpcodes, keyPayloadOpcodes, ht]

/-- For each command, the rows of the tables are its checks in their order (20_memory.md R52,
60_exceptions.md R262). -/
theorem operandStatus_eq {i : Instr} (h : i.argOk = true) (r : Regs) :
    operandStatus r (opcode i) (argByte i) i.payload.length = endStatus (checkError i r) := by
  cases i
  case rotl1 p => cases p <;> rfl
  case cmacInit t p =>
    rw [checkError, endStatus_ite]
    exact operandStatus_cmacInit r t p.length
  case' cmacFinal n p => rw [checkError_cmacFinal (of_decide_eq_true h)]
  all_goals
    simp [operandStatus, opcode, argByte, Instr.payload, checkError, lengthAccepted, keyOpcodes,
      cmacKeyOpcodes, keyPayloadOpcodes, errorCode, keyLength_of_familyCode,
      nonceLength_of_familyCode, blockSize_of_familyCode, isWholeBlocks_eq]

/-- The tables over the raw bytes give the status of the error the decoder and the command find
(60_exceptions.md R262). -/
theorem frameStatus_eq (r : Regs) (f : ByteString) : frameStatus r f = endStatus (frameError r f) := by
  rcases decode_cases f with ⟨hmal, hd⟩ | ⟨op, arg, hi, lo, p, rfl, hlen, hd⟩
  · rw [frameError_of_decode_error hd]
    exact if_pos hmal
  · rw [frameStatus_framed hlen]
    match hc : decodeCommand op arg p with
    | .error e =>
      rw [frameError_of_decode_error (hd.trans hc)]
      rcases decodeCommand_error hc with ⟨hop, rfl⟩ | ⟨hop, harg, rfl⟩
      · exact if_pos hop
      · rw [if_neg (not_not.2 hop), if_pos harg]
        rfl
    | .ok i =>
      rw [frameError_of_decode_ok (hd.trans hc)]
      obtain ⟨rfl, rfl, rfl, hok⟩ := decodeCommand_ok hc
      rw [if_neg (not_not.2 (opcode_legal i)), if_neg (by simp [argAccepted_of_argOk hok]),
        operandStatus_eq hok]

/-- Settles O8: the tables give the error of the frame, which the step takes, or none. -/
theorem frameStatusFollowsCheckOrder : Obligations.FrameStatusFollowsCheckOrder := by
  intro s f
  rw [frameStatus_eq]
  match he : frameError s.regs f with
  | some e =>
    exact ⟨fun _ => step_of_frameError (s := s.presenting f) rfl he,
      fun h0 => absurd h0 (errorCode_ne_zero e)⟩
  | none =>
    exact ⟨fun h0 => absurd rfl h0, fun _ => step_of_frameError_none (s := s.presenting f) rfl he⟩

/-! ## The statuses of each command -/

/-- Every check of a command has a status of the command's row (60_exceptions.md R261). -/
theorem errorCode_returnable_of_checkError {i : Instr} {r : Regs} {e : CmdError}
    (h : checkError i r = some e) : errorCode e ∈ returnableStatuses (opcode i) := by
  cases i
  all_goals
    simp only [checkError] at h
    split_ifs at h
    all_goals
      cases h
      simp [errorCode, opcode, returnableStatuses]

theorem ok_returnable {op : Byte} (h : op ∈ legalOpcodes) : 0x00 ∈ returnableStatuses op := by
  revert op
  rw [← List.forall_iff_forall_mem]
  decide

/-- BadArg is in the row of every opcode that refuses an argument: of all but CMAC.INIT
(30_encoding.md R74 (c)). -/
theorem badArg_returnable {op arg : Byte} (h : op ∈ legalOpcodes) (harg : argAccepted op arg = false) :
    0x05 ∈ returnableStatuses op := by
  suffices hrow : legalOpcodes.Forall fun op => op = 0x30 ∨ 0x05 ∈ returnableStatuses op by
    rcases List.forall_iff_forall_mem.1 hrow op h with rfl | hmem
    · cases harg
    · exact hmem
  decide

/-- The error of a well-formed frame has a status of its command's row (60_exceptions.md R261). -/
theorem errorCode_returnable {op arg : Byte} {p : ByteString} {r : Regs} {e : CmdError}
    (hop : op ∈ legalOpcodes) (hp : p.length ≤ 65535)
    (he : frameError r (commandFrame op arg p) = some e) : errorCode e ∈ returnableStatuses op := by
  have hd := decode_commandFrame op arg hp
  match hc : decodeCommand op arg p with
  | .error e' =>
    rw [frameError_of_decode_error (hd.trans hc)] at he
    cases he
    rcases decodeCommand_error hc with ⟨hill, -⟩ | ⟨-, harg, rfl⟩
    · exact absurd hop hill
    · exact badArg_returnable hop harg
  | .ok i =>
    rw [frameError_of_decode_ok (hd.trans hc)] at he
    obtain ⟨rfl, -⟩ := decodeCommand_ok hc
    exact errorCode_returnable_of_checkError he

/-- Registers in which a status occurs: neither key is loaded for the two that say so, and both are for
any other. -/
def witnessRegs (st : Byte) : Regs :=
  if st = 0x03 ∨ st = 0x04 then Regs.reset else { Regs.reset with keyv := true, cinit := true }

/-- An argument with which a status of an opcode's row occurs: for BadArg one that is no family code and no
MAC length, and for any other the tag of AES to CMAC.INIT and zero, the code of DES, to the rest. -/
def witnessArg (op st : Byte) : Byte :=
  if st = 0x05 then 0xff else if op = 0x30 then 0x03 else 0x00

/-- A payload length with which a status of an opcode's row occurs: for OK a length of the opcode's row in
20_memory.md R52, and for any other one outside that row, if there is one. -/
def witnessLength (op st : Byte) : Nat :=
  if st = 0x00 then
    if op ∈ [0x30, 0x40] then 16
    else if op ∈ [0x10, 0x12, 0x13, 0x21, 0x24, 0x25, 0x41, 0x42] then 8
    else 0
  else if op = 0x41 then 0
  else 1

theorem witnessLength_le (op st : Byte) : witnessLength op st ≤ 65535 := by
  unfold witnessLength
  split_ifs <;> decide

/-- The frame in which a status of an opcode's row occurs. -/
def witnessFrame (op st : Byte) : ByteString :=
  commandFrame op (witnessArg op st) (zeros (witnessLength op st))

/-- Every status of every row occurs (60_exceptions.md R261). -/
theorem frameStatus_witnessFrame {op st : Byte} (hop : op ∈ legalOpcodes)
    (hst : st ∈ returnableStatuses op) :
    frameStatus (witnessRegs st) (witnessFrame op st) = st := by
  suffices htable : legalOpcodes.Forall fun op => (returnableStatuses op).Forall fun st =>
      frameStatus (witnessRegs st) (witnessFrame op st) = st by
    simp only [List.forall_iff_forall_mem] at htable
    exact htable op hop st hst
  decide

/-- The response to a frame has the status the tables give (60_exceptions.md R262). -/
theorem step_responds_frameStatus (s : State) (f : ByteString) :
    ∃ s' d, step (s.presenting f) = .next s' ∧
      s'.responses = s.responses ++ [responseFrame (frameStatus s.regs f) d] := by
  obtain ⟨herr, hok⟩ := frameStatusFollowsCheckOrder s f
  by_cases h0 : frameStatus s.regs f = 0
  · obtain ⟨r, d, -, hstep⟩ := hok h0
    exact ⟨_, d, hstep, by rw [h0]; rfl⟩
  · exact ⟨_, [], herr h0, rfl⟩

/-- Settles O9: the status of a frame is that of its error, which is in the command's row, or OK; and each
status of the row is that of `witnessFrame` in `witnessRegs`. -/
theorem returnableStatusTable : Obligations.ReturnableStatusTable := by
  refine fun op hop => ⟨fun s s' arg p hp hs => ?_, fun st hst => ?_⟩
  · obtain ⟨s₁, d, hstep, hresp⟩ := step_responds_frameStatus s (commandFrame op arg p)
    obtain rfl := Host.Outcome.next.inj (hstep.symm.trans hs)
    refine ⟨_, ?_, _, hresp⟩
    rw [frameStatus_eq]
    match he : frameError s.regs (commandFrame op arg p) with
    | some e => exact errorCode_returnable hop hp he
    | none => exact ok_returnable hop
  · obtain ⟨s', d, hstep, hresp⟩ :=
      step_responds_frameStatus { State.reset with regs := witnessRegs st } (witnessFrame op st)
    rw [frameStatus_witnessFrame hop hst] at hresp
    exact ⟨_, s', _, _, d, (zeros_length _).symm ▸ witnessLength_le op st, hstep, hresp⟩

end Sys2Proof.Machine
end

