-- ==== Sys2Proof/Proofs/ResetAndIdle.lean ====
section
/-! PROOF. The two steps in which no command runs: the reset move and the idle step
(70_reset_and_hazards.md R300, R301). -/

namespace Sys2Proof.Machine

/-- Settles O12: the step is `State.hostReset`, whose registers are those of the initial state, read one
by one. -/
theorem resetSetsEveryRegister : Obligations.ResetSetsEveryRegister :=
  fun _ _ h => ⟨Regs.reset, step_reset h, rfl, rfl, rfl, rfl, rfl, rfl, rfl, rfl, rfl, rfl, rfl, rfl, rfl⟩

/-- Settles O13. -/
theorem idleStepChangesNothing : Obligations.IdleStepChangesNothing := fun _ => step_idle

end Sys2Proof.Machine
end

