-- ==== Sys2Proof/Proofs/CallCounts.lean ====
section
/-! PROOF. The number of cipher calls of each command (70_reset_and_hazards.md R308): the calls counted are
those of the computation the machine runs (`execWith_params`, `execWith_eq_run`), and a failed check comes
before any call. -/

namespace Sys2Proof.Machine

/-- Under the model's own parameters a command is what the machine executes. -/
theorem execWith_params (s : State) : ∀ i : Instr, execWith Config.params i s = exec i s
  | .zeroize _ | .stat _ | .keyLoad _ _ | .keyClear _ | .ecbEnc _ | .ecbDec _
  | .ivZero _ | .ivLoad _ | .ivGet _ | .cbcOut _ | .cbcIn _
  | .cmacInit _ _ | .cmacUpdate _ | .cmacFinal _ _
  | .skdDerive _ _ | .rotl1 _ | .keyPrep _ _ => rfl

/-- The opcodes of the commands that use the cipher. -/
def cipherOpcodes : List Byte := [0x12, 0x13, 0x24, 0x25, 0x30, 0x31, 0x32]

theorem callTrace_of_not_mem_cipherOpcodes (c : Config.Params) (s : State) {i : Instr}
    (h : opcode i ∉ cipherOpcodes) : callTrace c i s = [] := by
  cases i with
  | ecbEnc _ | ecbDec _ | cbcOut _ | cbcIn _ | cmacInit _ _ | cmacUpdate _ | cmacFinal _ _ =>
    simp [opcode, cipherOpcodes] at h
  | zeroize _ | stat _ | keyLoad _ _ | keyClear _ | ivZero _ | ivLoad _ | ivGet _
  | skdDerive _ _ | rotl1 _ | keyPrep _ _ => rfl

/-! ## A command that ends in error -/

section
variable {c : Config.Params} {i : Instr} {s : State} {e : CmdError}

/-- The checks come before the calls (60_exceptions.md R262). -/
theorem callTrace_of_checkError (h : checkError i s.regs = some e) : callTrace c i s = [] := by
  cases i with
  | ecbEnc _ | ecbDec _ | cbcOut _ | cbcIn _ | cmacInit _ _ | cmacUpdate _ | cmacFinal _ _ =>
    simp only [checkError] at h
    simp only [callTrace_ecbEnc, callTrace_ecbDec, callTrace_cbcOut, callTrace_cbcIn,
      callTrace_cmacInit, callTrace_cmacUpdate, callTrace_cmacFinal]
    split_ifs at h ⊢ <;> rfl
  | zeroize _ | stat _ | keyLoad _ _ | keyClear _ | ivZero _ | ivLoad _ | ivGet _
  | skdDerive _ _ | rotl1 _ | keyPrep _ _ => rfl

/-- A command no check of which fails answers, whatever the cipher. -/
theorem execWith_of_ok (h : checkError i s.regs = none) :
    ∃ r d, execWith c i s = .next (s.reply r d) := by
  cases i with
  | ecbEnc _ | ecbDec _ | cbcOut _ | cbcIn _ | cmacInit _ _ | cmacUpdate _ | cmacFinal _ _ =>
    simp only [checkError] at h
    simp only [execWith, ecbEncWith, ecbDecWith, cbcOutWith, cbcInWith, cmacInitWith,
      cmacUpdateWith, cmacFinalWith, ecbEncProg_run, ecbDecProg_run, cbcOutProg_run, cbcInProg_run,
      cmacInitProg_run, cmacUpdateProg_run, cmacFinalProg_run]
    split_ifs at h ⊢
    exact ⟨_, _, rfl⟩
  | zeroize _ | stat _ | keyLoad _ _ | keyClear _ | ivZero _ | ivLoad _ | ivGet _
  | skdDerive _ _ | rotl1 _ | keyPrep _ _ => exact ⟨_, _, exec_of_ok h⟩

/-- A command that ends in error makes no call: an answer is no error, so that a check has failed. -/
theorem callTrace_of_raise (h : execWith c i s = .next (s.raise e)) : callTrace c i s = [] := by
  cases hc : checkError i s.regs with
  | some e' => exact callTrace_of_checkError hc
  | none =>
    obtain ⟨r, d, hok⟩ := execWith_of_ok (c := c) hc
    exact absurd (Host.Outcome.next.inj (hok.symm.trans h)) (s.reply_ne_raise r d e)

end

/-! ## The CBC commands -/

/-- Going out, every call has whatever every call made for one block has. -/
theorem stdOut_trace_forall {c : Config.Params} {f : ByteString → CipherProg ByteString}
    {Q : CipherCall → Prop} (hf : ∀ b, ∀ q ∈ (f b).trace c, Q q) (v : ByteString)
    (ps : List ByteString) : ∀ q ∈ (stdOut f v ps).trace c, Q q := by
  induction ps generalizing v with
  | nil => simp [stdOut]
  | cons p ps ih =>
    intro q hq
    rw [stdOut, CipherProg.trace_bind, CipherProg.trace_map, List.mem_append] at hq
    exact hq.elim (hf _ q) (ih _ q)

section
variable {c : Config.Params} {r : Regs} {ps : List ByteString}

/-- CBC.OUT makes one call for each block it returns, that is for each block of its payload. -/
theorem length_cbcOutBlocks_trace : ((cbcOutBlocks r ps).trace c).length = ps.length := by
  rw [← List.length_map (answerCall c), cbcOutBlocks_answers, cbcOutBlocks_run, chainOut_length]

/-- In the standard discipline CBC.OUT calls `BCE` (41_cbc_modes.md R131). -/
theorem countCalls_cbcOutBlocks_standard (hd : Config.discipline r.fam = .standard) :
    countCalls ((cbcOutBlocks r ps).trace c) = ⟨ps.length, 0⟩ := by
  rw [countCalls_enc, length_cbcOutBlocks_trace]
  simp only [cbcOutBlocks, hd]
  exact stdOut_trace_forall (by simp) _ _

/-- In the legacy discipline CBC.OUT calls `BCD` (41_cbc_modes.md R133). -/
theorem countCalls_cbcOutBlocks_legacy (hd : Config.discipline r.fam = .legacy) :
    countCalls ((cbcOutBlocks r ps).trace c) = ⟨0, ps.length⟩ := by
  rw [countCalls_dec, length_cbcOutBlocks_trace]
  simp only [cbcOutBlocks, hd, legSend_eq_stdOut]
  exact stdOut_trace_forall (by simp) _ _

end

section
variable {c : Config.Params} {s : State} {p : ByteString} {k : Nat} (hk : 1 ≤ k)
  (hp : p.length = k * s.regs.blockSize)
include hk hp

/-- A payload of `k` blocks is accepted (20_memory.md R52) and read as `k` blocks. -/
theorem isWholeBlocks_and_length_payloadBlocks : isWholeBlocks s.regs.blockSize p = true ∧
    (payloadBlocks s.regs.blockSize p).length = k :=
  ⟨isWholeBlocks_of_length (bs_pos _) hk hp, by
    rw [payloadBlocks_eq (bs := s.regs.blockSize) (bs_pos _) hp, blocks_length]⟩

variable (hkey : s.regs.keyv = true)
include hkey

/-- CBC.OUT of `k` blocks makes `k` calls in the direction of its discipline
(70_reset_and_hazards.md R308). -/
theorem cipherCalls_cbcOut :
    (Config.discipline s.regs.fam = .standard → cipherCalls c (.cbcOut p) s = ⟨k, 0⟩) ∧
      (Config.discipline s.regs.fam = .legacy → cipherCalls c (.cbcOut p) s = ⟨0, k⟩) := by
  obtain ⟨hw, hlen⟩ := isWholeBlocks_and_length_payloadBlocks hk hp
  have htrace : callTrace c (.cbcOut p) s =
      (cbcOutBlocks s.regs (payloadBlocks s.regs.blockSize p)).trace c := by simp [hkey, hw]
  rw [cipherCalls, htrace, ← hlen]
  exact ⟨countCalls_cbcOutBlocks_standard, countCalls_cbcOutBlocks_legacy⟩

/-- CBC.IN of `k` blocks makes `k` calls of `BCD` in either discipline (70_reset_and_hazards.md R308). -/
theorem cipherCalls_cbcIn : cipherCalls c (.cbcIn p) s = ⟨0, k⟩ := by
  obtain ⟨hw, hlen⟩ := isWholeBlocks_and_length_payloadBlocks hk hp
  rw [cipherCalls, callTrace_cbcIn_of_ok hkey hw, countCalls_dec (by simp), List.length_map, hlen]

end

/-! ## CMAC.UPDATE and the counts together -/

/-- CMAC.UPDATE makes one call for each full block that turns out not to be the last
(70_reset_and_hazards.md R308). -/
theorem cipherCalls_cmacUpdate {s : State} (hi : s.regs.cinit = true) (c : Config.Params)
    (p : ByteString) :
    cipherCalls c (.cmacUpdate p) s = ⟨(s.regs.blen.val + p.length + 15) / 16 - 1, 0⟩ := by
  rw [cipherCalls, (cmacUpdate_of_ok hi).1,
    countCalls_enc fun q hq => (absorb_trace_mem c p s.regs q hq).1, absorb_trace_length]

/-- Settles O24: the commands of one call have the traces of Proofs/CallUse.lean, and the others are
counted above. -/
theorem cipherCallCounts : Obligations.CipherCallCounts := by
  refine fun c s p n => ⟨fun i => ⟨execWith_params s i, execWith_eq_run c s i⟩, fun hkey hp => ?_,
    fun k hkey hk hp => ?_, fun hp => ?_, fun hi => cipherCalls_cmacUpdate hi c p, fun hi hn => ?_,
    fun i hop => ?_, fun i e h => ?_⟩
  · obtain ⟨henc, hdec⟩ := callTrace_ecb_of_ok (c := c) hkey hp
    rw [cipherCalls, cipherCalls, henc, hdec]
    exact ⟨rfl, rfl⟩
  · obtain ⟨hstd, hleg⟩ := cipherCalls_cbcOut (c := c) hk hp hkey
    refine ⟨fun hf => hstd ?_, fun hf => hleg ?_, cipherCalls_cbcIn hk hp hkey⟩
    · rcases hf with hf | hf <;> rw [hf] <;> rfl
    · rcases hf with hf | hf <;> rw [hf] <;> rfl
  · rw [cipherCalls, (cmacInit_of_ok hp).1]
    rfl
  · have hmax : ¬Config.cmacMaxN < n.toNat := Nat.not_lt.2 hn
    simp [cipherCalls, countCalls, hi, hmax]
  · rw [cipherCalls, callTrace_of_not_mem_cipherOpcodes c s hop]
    rfl
  · rw [cipherCalls, callTrace_of_raise h]
    rfl

end Sys2Proof.Machine
end
